-- ==== Sys2Proof/Word.lean ====
section
/-! DEFINITION. The word types of the CHIP-8 core: the widths the spec gives its registers, its
opcode fields and its memory cells (00_scope.md R7, R10). Everything is unsigned and wraps. -/

namespace Sys2Proof

/-- A memory cell, a general register, a timer, an immediate NN (R20, R29, R30, R81). -/
abbrev Byte := BitVec 8

/-- An opcode, PC, I, a stack slot (R24, R26, R28, R80). -/
abbrev Word := BitVec 16

/-- A 12-bit address immediate NNN (R81). -/
abbrev Addr := BitVec 12

/-- A 4-bit field whose value no register name or count is read from (R81). -/
abbrev Nibble := BitVec 4

/-- The number of a general register, V0 to VF (R20). -/
abbrev RegIdx := Fin 16

/-- The number of a keypad flag, 0x0 to 0xF (R33). -/
abbrev KeyIdx := Fin 16

/-- A column of the display (R32). -/
abbrev Col := Fin 64

/-- A row of the display (R32). -/
abbrev Row := Fin 32

/-- VF, register 15: "reused as the generic flag/carry/borrow/collision output" (R22). -/
abbrev vf : RegIdx := 15

end Sys2Proof
end

