-- ==== Sys2Proof/Config.lean ====
section
/-! DEFINITION. The parameters of the core (00_scope.md R7): the constants the source fixes, the
default of the parameter FONT (10_state.md R31), and the free value RAND (42_alu.md R152). -/

namespace Sys2Proof
namespace Config

/-- `MEM_SIZE` (R7, R30). -/
abbrev memSize : Nat := 4096

/-- `PROG_BASE`: where programs are loaded, and PC after reset (R7). -/
abbrev progBase : Nat := 0x200

/-- `MAX_ROM`: the longest program that fits (R7, R252). -/
abbrev maxRom : Nat := 3584

/-- `FONT_BASE` + number of font bytes: the font is `memory[0..80)` (R7, R30). -/
abbrev fontBytes : Nat := 80

/-- `FONT_GLYPH_BYTES` (R7, R202). -/
abbrev glyphBytes : Nat := 5

/-- `STACK_DEPTH` (R7, R28). -/
abbrev stackDepth : Nat := 16

/-- `PIXEL_OFF` (R7, R32). -/
abbrev pixelOff : BitVec 32 := 0x00000000#32

/-- `PIXEL_ON` (R7, R32). -/
abbrev pixelOn : BitVec 32 := 0xFFFFFFFF#32

/-- The 80 bytes of a font table (R31). -/
abbrev Font := Vector Byte fontBytes

/-- Glyphs 0 to 7 of the default font (R31). -/
def glyphsLow : Vector Byte 40 :=
  #v[0xF0, 0x90, 0x90, 0x90, 0xF0,
     0x20, 0x60, 0x20, 0x20, 0x70,
     0xF0, 0x10, 0xF0, 0x80, 0xF0,
     0xF0, 0x10, 0xF0, 0x10, 0xF0,
     0x90, 0x90, 0xF0, 0x10, 0x10,
     0xF0, 0x80, 0xF0, 0x10, 0xF0,
     0xF0, 0x80, 0xF0, 0x90, 0xF0,
     0xF0, 0x10, 0x20, 0x40, 0x40]

/-- Glyphs 8 to F of the default font (R31). -/
def glyphsHigh : Vector Byte 40 :=
  #v[0xF0, 0x90, 0xF0, 0x90, 0xF0,
     0xF0, 0x90, 0xF0, 0x10, 0xF0,
     0xF0, 0x90, 0xF0, 0x90, 0x90,
     0xE0, 0x90, 0xE0, 0x90, 0xE0,
     0xF0, 0x80, 0x80, 0x80, 0xF0,
     0xE0, 0x90, 0x90, 0x90, 0xE0,
     0xF0, 0x80, 0xF0, 0x80, 0xF0,
     0xF0, 0x80, 0xF0, 0x80, 0x80]

/-- PRESUMED (log 1): the default of the parameter `FONT`, the table of R31, which the spec marks
"from general knowledge, not in source" (D8). Only `State.reset` uses it; a claim about every state
is a claim about every font. -/
def defaultFont : Font := glyphsLow ++ glyphsHigh

/-- The free value `RAND` (R8, R152, D17): the byte of the n-th draw. It has no body, so nothing can
be proved of its values and a claim holds whatever bytes are drawn. DESIGN CHOICE (log 2): the
counter `draws` of State numbers the draws. -/
opaque rand : Nat → Byte

end Config
end Sys2Proof
end

