-- ==== Sys2Proof/Machine/State.lean ====
section
/-! DEFINITION. The state of the core as plain data: the record of 10_state.md R41, the fault record
(R35), the parameter FONT that the memory's reset contents come from (R8, R31), and the model's own
record of what the cycles put out (R38, R39). -/

namespace Sys2Proof
namespace Machine

/-- Memory (R30): a sparse list over the reset contents. `cells` lists (address, byte) with strictly
rising addresses below 4096 and no entry equal to what an unlisted address reads as
(`Memory.wf`, Sys2Proof/Machine/Ops.lean). -/
structure Memory where
  /-- The parameter `FONT`, "a fixed 80-byte table the model receives" (R8); nothing writes it. -/
  font  : Config.Font
  /-- What differs from the reset contents. -/
  cells : List Host.Cell
  deriving DecidableEq, Repr

/-- The display buffer, `disp[x][y]` for column x and row y, `true` = on (R32). -/
abbrev Display := Vector (Vector Bool 32) 64

/-- The lifecycle phase (R34). -/
inductive Phase where
  /-- Before the first `initialize` (R251). -/
  | uninit
  /-- After `initialize`, before the first completed cycle. -/
  | ready
  /-- After the first completed cycle. -/
  | running
  /-- After a failed `loadProgram` (R253). -/
  | loadFailed
  deriving DecidableEq, Repr

/-- The fault kinds (R221). -/
inductive FaultKind where
  /-- 2NNN with SP = 16. -/
  | stackOverflow
  /-- 00EE with SP = 0. -/
  | stackUnderflow
  /-- An address to be read or written is 4096 or more. -/
  | memoryBounds
  /-- EX9E or EXA1 with V[X] above 0x0F. -/
  | keyIndexRange
  deriving DecidableEq, Repr

/-- The fault record, "the 16-bit address of the faulting instruction", its word (0 for a fetch
fault) and "the offending memory address or key index" (R35). The address is a natural number, as
R63 computes it. -/
structure FaultRecord where
  kind   : FaultKind
  pc     : Word
  opcode : Word
  addr   : Nat
  deriving DecidableEq, Repr

/-- An output of a cycle (R39). -/
inductive Event where
  /-- The `tone` signal of one cycle (R196). -/
  | tone
  /-- `UnknownOpcode(op, pc)` on the `diag` output (R109). -/
  | unknownOpcode (op pc : Word)
  deriving DecidableEq, Repr

/-- The operations of the core's interface (R39). -/
inductive PortOp where
  | init
  | loadProgram
  | runCycle
  | setKey
  | getDisplay
  | getKeys
  | readFault
  deriving DecidableEq, Repr

/-- The whole state, "a single owned aggregate" (R40, R41). -/
structure State where
  /-- V0 to VF (R20). -/
  v      : Vector Byte 16
  /-- The index register I (R26). -/
  i      : Word
  /-- The program counter (R24). -/
  pc     : Word
  /-- The number of occupied stack slots, 0 to 16 inclusive (R27). -/
  sp     : Fin 17
  /-- The return addresses (R28). -/
  stack  : Vector Word 16
  /-- The delay timer (R29). -/
  dt     : Byte
  /-- The sound timer (R29). -/
  st     : Byte
  /-- Memory (R30). -/
  mem    : Memory
  /-- The display buffer (R32). -/
  disp   : Display
  /-- The keypad flags, `true` = pressed (R33). -/
  key    : Vector Bool 16
  /-- The lifecycle phase (R34). -/
  phase  : Phase
  /-- The fault record (R35). -/
  fault  : Option FaultRecord
  /-- DESIGN CHOICE (log 3), the model's own: the outputs emitted so far, oldest first (R39). -/
  events : List Event
  /-- DESIGN CHOICE (log 2), the model's own: how many RAND bytes have been drawn (R152). -/
  draws  : Nat
  deriving DecidableEq, Repr

/-- Why a step stops: the steps the spec says do not exist ("a model treats the call as stuck",
R112, R255). No instruction's meaning answers one. -/
inductive Fault where
  /-- Raised by `step` when a fault is recorded: the core is halted until `initialize` (R112, R222).
  Safe: the spec gives the call no step. -/
  | halted (record : FaultRecord)
  /-- Raised by `step` and by the host's ports when the phase does not admit the operation (R255).
  Safe: the spec gives the call no step. -/
  | notAdmitted (op : PortOp) (phase : Phase)
  deriving DecidableEq, Repr

/-- Why a step has no meaning. -/
inductive Refusal where
  /-- Raised by an arm of `exec` whose instruction has no meaning yet; no arm does. Safe. -/
  | notModelled (mnemonic : String)
  deriving DecidableEq, Repr

/-- The display with every cell off (R32, R165). -/
def Display.allOff : Display := Vector.replicate 64 (Vector.replicate 32 false)

/-- The state `initialize` leaves (R250), for a given font: nothing is listed in memory, so that
bytes 0 to 79 read as the font and every other byte reads as 0. -/
def State.resetWith (font : Config.Font) : State where
  v := Vector.replicate 16 0
  i := 0
  pc := BitVec.ofNat 16 Config.progBase
  sp := 0
  stack := Vector.replicate 16 0
  dt := 0
  st := 0
  mem := { font := font, cells := [] }
  disp := Display.allOff
  key := Vector.replicate 16 false
  phase := .ready
  fault := none
  events := []
  draws := 0

/-- The machine right after reset (R250), with the default font (PRESUMED, log 1). -/
def State.reset : State := State.resetWith Config.defaultFont

end Machine
end Sys2Proof
end

