-- ==== Sys2Proof/Machine/Flags.lean ====
section
/-! DEFINITION. The flag values written into VF (10_state.md R22, 42_alu.md): each is computed from
the values before the instruction (R140). -/

namespace Sys2Proof
namespace Machine

/-- A flag as the byte VF holds. -/
def flagByte (f : Bool) : Byte := if f then 1 else 0

/-- 8XY4: "VF=1 if the unclamped sum exceeds 255, else 0" (R147). -/
def carryFlag (a b : Byte) : Byte := flagByte (decide (a.toNat + b.toNat > 255))

/-- 8XY5 and 8XY7: 1 when the minuend is strictly greater than the subtrahend (R148, R150, R153). -/
def noBorrowFlag (minuend subtrahend : Byte) : Byte :=
  flagByte (decide (minuend.toNat > subtrahend.toNat))

/-- 8XY6: bit 0 before the shift (R149). -/
def lowBitFlag (a : Byte) : Byte := flagByte (a.getLsbD 0)

/-- 8XYE: bit 7 before the shift (R151). -/
def highBitFlag (a : Byte) : Byte := flagByte (a.getLsbD 7)

/-- 8XY0 to 8XY3: the flag value 0 (R143 to R146, D11). -/
def clearedFlag : Byte := 0

/-- DXYN: 1 if a cell went from on to off (R166, R169). -/
def collisionFlag (hit : Bool) : Byte := flagByte hit

end Machine
end Sys2Proof
end

