-- ==== Sys2Proof/Machine/Operands.lean ====
section
/-! DEFINITION. The operand forms (30_encoding.md R82, R83): a register read directly, immediates
zero-extended, a keypad flag named by a register, and I as an address. -/

namespace Sys2Proof
namespace Machine

/-- A byte zero-extended to 16 bits (R82, R129, R201, R202). -/
def zextByte (b : Byte) : Word := b.setWidth 16

/-- NNN zero-extended to 16 bits (R82). -/
def zextAddr (nnn : Addr) : Word := nnn.setWidth 16

/-- The key a byte names, if there is one: "V[X] > 0x0F" names none (R180). -/
def keyOf (b : Byte) : Option KeyIdx :=
  if h : b.toNat < 16 then some ⟨b.toNat, h⟩ else none

/-- The index of a key as the byte FX0A writes (R186). -/
def keyByte (k : KeyIdx) : Byte := BitVec.ofNat 8 k.val

/-- The scan of FX0A, keys 0 to 15 in order, "last match overwrites" (R186). -/
def scanKeys (key : Vector Bool 16) : Option KeyIdx :=
  (List.finRange 16).foldl (fun found k => if key[k] then some k else found) none

/-- The hundreds, tens and units of a byte (R203). -/
def bcdDigits (b : Byte) : List Byte :=
  [BitVec.ofNat 8 (b.toNat / 100), BitVec.ofNat 8 (b.toNat / 10 % 10), BitVec.ofNat 8 (b.toNat % 10)]

/-- V0 to V[X], the registers of FX55 in ascending order (R204). -/
def regsUpTo (v : Vector Byte 16) (x : RegIdx) : List Byte := v.toList.take (x.val + 1)

/-- The number of registers FX55 and FX65 move, "inclusive: X+1 registers" (R204, R205). -/
def regCount (x : RegIdx) : Nat := x.val + 1

/-- The address of FX29's glyph, VX × 5 (R202). -/
def glyphAddr (b : Byte) : Word := zextByte b * BitVec.ofNat 16 Config.glyphBytes

/-- The target of BNNN, V0 + NNN (R129). -/
def indexedTarget (v0 : Byte) (nnn : Addr) : Word := zextByte v0 + zextAddr nnn

end Machine
end Sys2Proof
end

