-- ==== Sys2Proof/Syntax.lean ====
section
/-! DEFINITION. The instructions: one constructor per row of the opcode map (30_encoding.md R84).
A field the row encodes is an argument, even where the instruction ignores it (the low nibble of
5XYN and 9XYN, R108; Y of the shifts, R149 and R151), so that no bit of an encoding is lost
(DESIGN CHOICE, log 7). An unknown opcode (R85) is no instruction: the decoder rejects it. -/

namespace Sys2Proof

inductive Instr where
  /-- 00E0 CLS (R165). -/
  | cls
  /-- 00EE RET (R122). -/
  | ret
  /-- 0NNN SYS addr (R121). -/
  | sys (nnn : Addr)
  /-- 1NNN JP addr (R123). -/
  | jp (nnn : Addr)
  /-- 2NNN CALL addr (R124). -/
  | call (nnn : Addr)
  /-- 3XNN SE Vx, byte (R125). -/
  | seByte (x : RegIdx) (nn : Byte)
  /-- 4XNN SNE Vx, byte (R126). -/
  | sneByte (x : RegIdx) (nn : Byte)
  /-- 5XYN SE Vx, Vy (R127); the low nibble n is not decoded (R108). -/
  | seReg (x y : RegIdx) (n : Nibble)
  /-- 6XNN LD Vx, byte (R141). -/
  | ldByte (x : RegIdx) (nn : Byte)
  /-- 7XNN ADD Vx, byte (R142). -/
  | addByte (x : RegIdx) (nn : Byte)
  /-- 8XY0 LD Vx, Vy (R143). -/
  | ldReg (x y : RegIdx)
  /-- 8XY1 OR Vx, Vy (R144). -/
  | orReg (x y : RegIdx)
  /-- 8XY2 AND Vx, Vy (R145). -/
  | andReg (x y : RegIdx)
  /-- 8XY3 XOR Vx, Vy (R146). -/
  | xorReg (x y : RegIdx)
  /-- 8XY4 ADD Vx, Vy (R147). -/
  | addReg (x y : RegIdx)
  /-- 8XY5 SUB Vx, Vy (R148). -/
  | subReg (x y : RegIdx)
  /-- 8XY6 SHR Vx (R149); Y is encoded and not read. -/
  | shr (x y : RegIdx)
  /-- 8XY7 SUBN Vx, Vy (R150). -/
  | subn (x y : RegIdx)
  /-- 8XYE SHL Vx (R151); Y is encoded and not read. -/
  | shl (x y : RegIdx)
  /-- 9XYN SNE Vx, Vy (R128); the low nibble n is not decoded (R108). -/
  | sneReg (x y : RegIdx) (n : Nibble)
  /-- ANNN LD I, addr (R200). -/
  | ldI (nnn : Addr)
  /-- BNNN JP V0, addr (R129). -/
  | jpV0 (nnn : Addr)
  /-- CXNN RND Vx, byte (R152). -/
  | rnd (x : RegIdx) (nn : Byte)
  /-- DXYN DRW Vx, Vy, nibble (R166); n is the count of sprite rows, 0 to 15. -/
  | drw (x y : RegIdx) (n : Fin 16)
  /-- EX9E SKP Vx (R181). -/
  | skp (x : RegIdx)
  /-- EXA1 SKNP Vx (R182). -/
  | sknp (x : RegIdx)
  /-- FX07 LD Vx, DT (R183). -/
  | ldVxDT (x : RegIdx)
  /-- FX0A LD Vx, K (R186). -/
  | ldVxK (x : RegIdx)
  /-- FX15 LD DT, Vx (R184). -/
  | ldDTVx (x : RegIdx)
  /-- FX18 LD ST, Vx (R185). -/
  | ldSTVx (x : RegIdx)
  /-- FX1E ADD I, Vx (R201). -/
  | addI (x : RegIdx)
  /-- FX29 LD F, Vx (R202). -/
  | ldF (x : RegIdx)
  /-- FX33 LD B, Vx (R203). -/
  | ldB (x : RegIdx)
  /-- FX55 LD [I], Vx (R204). -/
  | stRegs (x : RegIdx)
  /-- FX65 LD Vx, [I] (R205). -/
  | ldRegs (x : RegIdx)
  deriving DecidableEq, Repr

end Sys2Proof
end

