-- ==== Sys2Proof/WellFormed.lean ====
section
/-! DEFINITION. The instructions that have an encoding. The operand types already bound every field
(R81), so ONE check is left: 0NNN is SYS only when the word is neither 00E0 nor 00EE, which are CLS
and RET (30_encoding.md R84, 40_fetch_dispatch.md R104). -/

namespace Sys2Proof

/-- `sys nnn` has an encoding exactly when the word 0NNN is no other instruction's (R104). -/
def sysAddrFree (nnn : Addr) : Bool := nnn != 0x0E0#12 && nnn != 0x0EE#12

/-- An instruction some opcode decodes to. -/
def Instr.wellFormed : Instr → Bool
  | .sys nnn => sysAddrFree nnn
  | .cls | .ret | .jp _ | .call _ | .seByte _ _ | .sneByte _ _ | .seReg _ _ _ | .ldByte _ _
  | .addByte _ _ | .ldReg _ _ | .orReg _ _ | .andReg _ _ | .xorReg _ _ | .addReg _ _
  | .subReg _ _ | .shr _ _ | .subn _ _ | .shl _ _ | .sneReg _ _ _ | .ldI _ | .jpV0 _ | .rnd _ _
  | .drw _ _ _ | .skp _ | .sknp _ | .ldVxDT _ | .ldVxK _ | .ldDTVx _ | .ldSTVx _ | .addI _
  | .ldF _ | .ldB _ | .stRegs _ | .ldRegs _ => true

end Sys2Proof
end

