-- ==== Sys2Proof/Decode.lean ====
section
/-! DEFINITION. The decoder (40_fetch_dispatch.md R102 to R110), total on the 65536 opcodes and on
any byte string, and the encoder written from the opcode map of 30_encoding.md R84. -/

namespace Sys2Proof

/-- Why the decoder gives no instruction. -/
inductive Rejection where
  /-- The word is selected by no row of the opcode map (R85). Safe: the cycle goes on as R109 says. -/
  | unknownOpcode (op : Word)
  /-- Fewer than two bytes are left. Safe: the machine itself always fetches two (R101). -/
  | truncated
  deriving DecidableEq, Repr

/-- F, "the top 4 bits" (R81). -/
def opFamily (op : Word) : Nibble := op.extractLsb' 12 4

/-- X = op[11:8] (R81), as the register number it is. -/
def opX (op : Word) : RegIdx := (op.extractLsb' 8 4).toFin

/-- Y = op[7:4] (R81), as the register number it is. -/
def opY (op : Word) : RegIdx := (op.extractLsb' 4 4).toFin

/-- N = op[3:0] (R81). -/
def opN (op : Word) : Nibble := op.extractLsb' 0 4

/-- NN = op[7:0] (R81). -/
def opNN (op : Word) : Byte := op.extractLsb' 0 8

/-- NNN = op[11:0] (R81). -/
def opNNN (op : Word) : Addr := op.extractLsb' 0 12

/-- Family 0x0 routes on the full opcode (R104). -/
def decodeFamily0 (op : Word) : Instr :=
  if op = 0x00E0#16 then .cls else if op = 0x00EE#16 then .ret else .sys (opNNN op)

/-- Family 0x8 routes on N (R105). -/
def decodeFamily8 (op : Word) : Except Rejection Instr :=
  match (opN op).toNat with
  | 0x0 => .ok (.ldReg (opX op) (opY op))
  | 0x1 => .ok (.orReg (opX op) (opY op))
  | 0x2 => .ok (.andReg (opX op) (opY op))
  | 0x3 => .ok (.xorReg (opX op) (opY op))
  | 0x4 => .ok (.addReg (opX op) (opY op))
  | 0x5 => .ok (.subReg (opX op) (opY op))
  | 0x6 => .ok (.shr (opX op) (opY op))
  | 0x7 => .ok (.subn (opX op) (opY op))
  | 0xE => .ok (.shl (opX op) (opY op))
  | _ => .error (.unknownOpcode op)

/-- Family 0xE routes on NN (R106). -/
def decodeFamilyE (op : Word) : Except Rejection Instr :=
  match (opNN op).toNat with
  | 0x9E => .ok (.skp (opX op))
  | 0xA1 => .ok (.sknp (opX op))
  | _ => .error (.unknownOpcode op)

/-- Family 0xF routes on NN (R107). -/
def decodeFamilyF (op : Word) : Except Rejection Instr :=
  match (opNN op).toNat with
  | 0x07 => .ok (.ldVxDT (opX op))
  | 0x0A => .ok (.ldVxK (opX op))
  | 0x15 => .ok (.ldDTVx (opX op))
  | 0x18 => .ok (.ldSTVx (opX op))
  | 0x1E => .ok (.addI (opX op))
  | 0x29 => .ok (.ldF (opX op))
  | 0x33 => .ok (.ldB (opX op))
  | 0x55 => .ok (.stRegs (opX op))
  | 0x65 => .ok (.ldRegs (opX op))
  | _ => .error (.unknownOpcode op)

/-- The dispatcher's routing on the top 4 bits (R103, R108), each opcode to exactly one handler or
to the unknown-opcode diagnostic (R110). The last arm is family 0xF. -/
def decode (op : Word) : Except Rejection Instr :=
  match (opFamily op).toNat with
  | 0x0 => .ok (decodeFamily0 op)
  | 0x1 => .ok (.jp (opNNN op))
  | 0x2 => .ok (.call (opNNN op))
  | 0x3 => .ok (.seByte (opX op) (opNN op))
  | 0x4 => .ok (.sneByte (opX op) (opNN op))
  | 0x5 => .ok (.seReg (opX op) (opY op) (opN op))
  | 0x6 => .ok (.ldByte (opX op) (opNN op))
  | 0x7 => .ok (.addByte (opX op) (opNN op))
  | 0x8 => decodeFamily8 op
  | 0x9 => .ok (.sneReg (opX op) (opY op) (opN op))
  | 0xA => .ok (.ldI (opNNN op))
  | 0xB => .ok (.jpV0 (opNNN op))
  | 0xC => .ok (.rnd (opX op) (opNN op))
  | 0xD => .ok (.drw (opX op) (opY op) (opN op).toFin)
  | 0xE => decodeFamilyE op
  | _ => decodeFamilyF op

/-- The opcode of two bytes, "big-endian: high byte first" (R61, R101). -/
def joinBytes (hi lo : Byte) : Word := hi ++ lo

/-- The byte at the instruction's own address (R61). -/
def highByte (op : Word) : Byte := op.extractLsb' 8 8

/-- The byte at the address after it (R61). -/
def lowByte (op : Word) : Byte := op.extractLsb' 0 8

/-- Decoding the head of a byte string; every instruction is two bytes long (R80). -/
def decodeBytes : List Byte → Except Rejection (Instr × List Byte)
  | hi :: lo :: rest => (decode (joinBytes hi lo)).map fun i => (i, rest)
  | _ => .error .truncated

/-! The encoder, from the patterns of R84 and the field places of R81. -/

/-- A register number, or a row count, as the 4-bit field that holds it. -/
def nib (x : Fin 16) : Nibble := BitVec.ofFin x

/-- F NNN, the address form (R81). -/
def addrForm (f : Nibble) (nnn : Addr) : Word := f ++ nnn

/-- F X NN, the register-byte form (R81). -/
def regByteForm (f : Nibble) (x : RegIdx) (nn : Byte) : Word := f ++ nib x ++ nn

/-- F X Y N, the register-register form (R81). -/
def regRegForm (f : Nibble) (x y : RegIdx) (n : Nibble) : Word := f ++ nib x ++ nib y ++ n

/-- The opcode of a well-formed instruction (R84). -/
def encode : Instr → Word
  | .cls => 0x00E0#16
  | .ret => 0x00EE#16
  | .sys nnn => addrForm 0x0 nnn
  | .jp nnn => addrForm 0x1 nnn
  | .call nnn => addrForm 0x2 nnn
  | .seByte x nn => regByteForm 0x3 x nn
  | .sneByte x nn => regByteForm 0x4 x nn
  | .seReg x y n => regRegForm 0x5 x y n
  | .ldByte x nn => regByteForm 0x6 x nn
  | .addByte x nn => regByteForm 0x7 x nn
  | .ldReg x y => regRegForm 0x8 x y 0x0
  | .orReg x y => regRegForm 0x8 x y 0x1
  | .andReg x y => regRegForm 0x8 x y 0x2
  | .xorReg x y => regRegForm 0x8 x y 0x3
  | .addReg x y => regRegForm 0x8 x y 0x4
  | .subReg x y => regRegForm 0x8 x y 0x5
  | .shr x y => regRegForm 0x8 x y 0x6
  | .subn x y => regRegForm 0x8 x y 0x7
  | .shl x y => regRegForm 0x8 x y 0xE
  | .sneReg x y n => regRegForm 0x9 x y n
  | .ldI nnn => addrForm 0xA nnn
  | .jpV0 nnn => addrForm 0xB nnn
  | .rnd x nn => regByteForm 0xC x nn
  | .drw x y n => regRegForm 0xD x y (nib n)
  | .skp x => regByteForm 0xE x 0x9E
  | .sknp x => regByteForm 0xE x 0xA1
  | .ldVxDT x => regByteForm 0xF x 0x07
  | .ldVxK x => regByteForm 0xF x 0x0A
  | .ldDTVx x => regByteForm 0xF x 0x15
  | .ldSTVx x => regByteForm 0xF x 0x18
  | .addI x => regByteForm 0xF x 0x1E
  | .ldF x => regByteForm 0xF x 0x29
  | .ldB x => regByteForm 0xF x 0x33
  | .stRegs x => regByteForm 0xF x 0x55
  | .ldRegs x => regByteForm 0xF x 0x65

/-- The two bytes of an instruction as memory holds them (R61). -/
def encodeBytes (i : Instr) : List Byte := [highByte (encode i), lowByte (encode i)]

/-- The word of an instruction whose bits are `w`, numbered as the opcode table numbers them; bits
at `nbits` and above are 0. -/
def tableWord (nbits w : Nat) : Word := BitVec.ofNat 16 (w % 2 ^ nbits)

/-- What the decoder reads from a row's word, laid out in memory as R61 says. -/
def decodeTableWord (nbits w : Nat) : Option Instr :=
  match decodeBytes [highByte (tableWord nbits w), lowByte (tableWord nbits w)] with
  | .ok (i, _) => some i
  | .error _ => none

end Sys2Proof
end

