-- ==== Sys2Proof/Machine/Ops.lean ====
section
/-! DEFINITION. The named operations over memory, registers, PC, the stack and the outputs, and
taking a fault as ONE operation, with the only way out of it, `initialize`, beside it. -/

namespace Sys2Proof
namespace Machine

/-! ## Memory (20_memory.md) -/

/-- What an address reads as that memory does not list: the reset contents, FONT below 80 and 0
above (R30). -/
def Memory.unlisted (m : Memory) (a : Nat) : Byte :=
  if h : a < Config.fontBytes then m.font[a] else 0

/-- The byte at an address. The operations below check the address first (R63). -/
def Memory.byte (m : Memory) (a : Nat) : Byte :=
  (m.cells.lookup a).getD (m.unlisted a)

/-- Lists a byte, keeping the addresses strictly rising. -/
def insertCell (a : Nat) (b : Byte) : List Host.Cell → List Host.Cell
  | [] => [(a, b)]
  | c :: cs =>
    if a < c.1 then (a, b) :: c :: cs
    else if a = c.1 then (a, b) :: cs
    else c :: insertCell a b cs

/-- Takes an address off the list. -/
def removeCell (a : Nat) (cells : List Host.Cell) : List Host.Cell :=
  cells.filter fun c => decide (c.1 ≠ a)

/-- Stores a byte, keeping the canonical form: the value an unlisted address reads as is not listed. -/
def Memory.put (m : Memory) (a : Nat) (b : Byte) : Memory :=
  if b = m.unlisted a then { m with cells := removeCell a m.cells }
  else { m with cells := insertCell a b m.cells }

/-- Stores bytes at ascending addresses (R61). -/
def Memory.putBytes (m : Memory) (a : Nat) : List Byte → Memory
  | [] => m
  | b :: bs => (m.put a b).putBytes (a + 1) bs

/-- The first address at or above 4096 of the `len` addresses from `base`, if there is one: a
transfer "checks every address it will touch before it reads or writes any" (R206). -/
def firstInvalid (base len : Nat) : Option Nat :=
  if len = 0 ∨ base + len ≤ Config.memSize then none else some (max base Config.memSize)

/-- `MemRead(addr, 1)`, or the address that raises MemoryBounds (R63). -/
def memRead (m : Memory) (a : Nat) : Except Nat Byte :=
  if a ≥ Config.memSize then .error a else .ok (m.byte a)

/-- `MemWrite(addr, 1, v)`, or the address that raises MemoryBounds (R64). -/
def memWrite (m : Memory) (a : Nat) (b : Byte) : Except Nat Memory :=
  if a ≥ Config.memSize then .error a else .ok (m.put a b)

/-- The bytes of a transfer that reads, all addresses checked first (R206). -/
def readRange (m : Memory) (base len : Nat) : Except Nat (List Byte) :=
  match firstInvalid base len with
  | some a => .error a
  | none => .ok ((List.range len).map fun k => m.byte (base + k))

/-- A transfer that writes, all addresses checked first (R206). -/
def writeRange (m : Memory) (base : Nat) (bytes : List Byte) : Except Nat Memory :=
  match firstInvalid base bytes.length with
  | some a => .error a
  | none => .ok (m.putBytes base bytes)

/-- The addresses are strictly rising. -/
def risingCells : List Host.Cell → Bool
  | [] => true
  | c :: cs => cs.all (fun d => decide (c.1 < d.1)) && risingCells cs

/-- The canonical form: strictly rising addresses below 4096, none reading as if unlisted. -/
def Memory.wf (m : Memory) : Bool :=
  risingCells m.cells &&
    m.cells.all fun c => decide (c.1 < Config.memSize) && decide (c.2 ≠ m.unlisted c.1)

/-! ## Registers, PC and outputs -/

/-- `V[x] <- b` (R11). -/
def setReg (x : RegIdx) (b : Byte) (s : State) : State :=
  { s with v := s.v.set x b }

/-- A result and then the flag: "the flag write is the last write" (R23, R140). -/
def setRegThenFlag (x : RegIdx) (result flag : Byte) (s : State) : State :=
  setReg vf flag (setReg x result s)

/-- `PC <- target`. -/
def setPc (target : Word) (s : State) : State := { s with pc := target }

/-- The fetch's advance, PC + 2 modulo 2^16 (R25, R101). -/
def advancePc (s : State) : State := setPc (s.pc + 2) s

/-- "skip next instruction, i.e. PC+=2", when the condition holds (R120). -/
def skipIf (c : Bool) (s : State) : State := if c then setPc (s.pc + 2) s else s

/-- The address of the instruction being executed: PC holds it plus 2 (R12). -/
def instrPc (s : State) : Word := s.pc - 2

/-- `emit E`: the event joins the outputs (R11). -/
def emit (e : Event) (s : State) : State := { s with events := s.events ++ [e] }

/-- `draw RAND`: the next oracle byte and the state after the draw (R11, R152). -/
def drawRand (s : State) : Byte × State :=
  (Config.rand s.draws, { s with draws := s.draws + 1 })

/-! ## Taking a fault, and the way out of it (60_exceptions.md) -/

/-- The numeric code of a fault kind (R221). -/
def FaultKind.code : FaultKind → Nat
  | .stackOverflow => 1
  | .stackUnderflow => 2
  | .memoryBounds => 3
  | .keyIndexRange => 4

/-- The code the fault port shows, 0 for no fault (R221). -/
def faultCode : Option FaultRecord → Nat
  | none => 0
  | some r => r.kind.code

/-- Fault entry (R222): the record is written and PC is the address of the faulting instruction
again (R111); "no other state changes". -/
def takeFault (kind : FaultKind) (pc0 op : Word) (addr : Nat) (s : State) : State :=
  { s with pc := pc0, fault := some { kind := kind, pc := pc0, opcode := op, addr := addr } }

/-- `raise F(info)` in the execute phase of the instruction `i` (R11, R222). The word recorded is
the instruction's own (DEDUCED, log 5). -/
def raiseFault (kind : FaultKind) (i : Instr) (addr : Nat) (s : State) :
    Host.Outcome State Fault Refusal :=
  .next (takeFault kind (instrPc s) (encode i) addr s)

/-- `initialize()` (R250), the only way out of a fault (R225). The parameter FONT stays, and the
model's own record of outputs and of oracle draws goes on (DESIGN CHOICE, log 9). -/
def initCore (s : State) : State :=
  { State.resetWith s.mem.font with events := s.events, draws := s.draws }

/-- An opcode without a handler: "emit UnknownOpcode(op, pc0)", no other effect (R109). -/
def unknownOpcode (op : Word) (s : State) : State := emit (.unknownOpcode op (instrPc s)) s

end Machine
end Sys2Proof
end

