-- ==== Sys2Proof/Machine/Alu.lean ====
section
/-! DEFINITION. The ALU family (42_alu.md). The 8XY* instructions compute result and flag from the
values before the instruction, write the result, and write VF last (R140). -/

namespace Sys2Proof
namespace Machine

/-- 6XNN: `V[X] <- NN` (R141). -/
def execLdByte (x : RegIdx) (nn : Byte) (s : State) : Host.Outcome State Fault Refusal :=
  .next (setReg x nn s)

/-- 7XNN: "VX = (VX+NN) mod 256, no flag write" (R142). -/
def execAddByte (x : RegIdx) (nn : Byte) (s : State) : Host.Outcome State Fault Refusal :=
  .next (setReg x (s.v[x] + nn) s)

/-- 8XY0: "assign VX=VY", VF <- 0 (R143). -/
def execLdReg (x y : RegIdx) (s : State) : Host.Outcome State Fault Refusal :=
  .next (setRegThenFlag x s.v[y] clearedFlag s)

/-- 8XY1: bitwise OR, VF <- 0 (R144). -/
def execOrReg (x y : RegIdx) (s : State) : Host.Outcome State Fault Refusal :=
  .next (setRegThenFlag x (s.v[x] ||| s.v[y]) clearedFlag s)

/-- 8XY2: bitwise AND, VF <- 0 (R145). -/
def execAndReg (x y : RegIdx) (s : State) : Host.Outcome State Fault Refusal :=
  .next (setRegThenFlag x (s.v[x] &&& s.v[y]) clearedFlag s)

/-- 8XY3: bitwise XOR, VF <- 0 (R146). -/
def execXorReg (x y : RegIdx) (s : State) : Host.Outcome State Fault Refusal :=
  .next (setRegThenFlag x (s.v[x] ^^^ s.v[y]) clearedFlag s)

/-- 8XY4: the sum modulo 256, VF = carry (R147). -/
def execAddReg (x y : RegIdx) (s : State) : Host.Outcome State Fault Refusal :=
  .next (setRegThenFlag x (s.v[x] + s.v[y]) (carryFlag s.v[x] s.v[y]) s)

/-- 8XY5: VX − VY modulo 256, VF = 1 if VX > VY (R148). -/
def execSubReg (x y : RegIdx) (s : State) : Host.Outcome State Fault Refusal :=
  .next (setRegThenFlag x (s.v[x] - s.v[y]) (noBorrowFlag s.v[x] s.v[y]) s)

/-- 8XY6: VX shifted right by one, VF = the old bit 0; Y is not read (R149). -/
def execShr (x _y : RegIdx) (s : State) : Host.Outcome State Fault Refusal :=
  .next (setRegThenFlag x (s.v[x] >>> 1) (lowBitFlag s.v[x]) s)

/-- 8XY7: VY − VX modulo 256, VF = 1 if VY > VX (R150). -/
def execSubn (x y : RegIdx) (s : State) : Host.Outcome State Fault Refusal :=
  .next (setRegThenFlag x (s.v[y] - s.v[x]) (noBorrowFlag s.v[y] s.v[x]) s)

/-- 8XYE: VX shifted left by one, VF = the old bit 7; Y is not read (R151). -/
def execShl (x _y : RegIdx) (s : State) : Host.Outcome State Fault Refusal :=
  .next (setRegThenFlag x (s.v[x] <<< 1) (highBitFlag s.v[x]) s)

/-- CXNN: a drawn byte "bitwise-AND NN" (R152). -/
def execRnd (x : RegIdx) (nn : Byte) (s : State) : Host.Outcome State Fault Refusal :=
  .next (setReg x ((drawRand s).1 &&& nn) (drawRand s).2)

end Machine
end Sys2Proof
end

