-- ==== Sys2Proof/Machine/ControlFlow.lean ====
section
/-! DEFINITION. The control-flow family (41_control_flow.md). Every meaning starts with PC at the
instruction's address plus 2 (00_scope.md R12). -/

namespace Sys2Proof
namespace Machine

/-- 0NNN: "executes as an unknown opcode" (R121). -/
def execSys (nnn : Addr) (s : State) : Host.Outcome State Fault Refusal :=
  .next (unknownOpcode (encode (.sys nnn)) s)

/-- 00EE: "pop into PC; fails with StackUnderflow if SP==0" (R122). -/
def execRet (s : State) : Host.Outcome State Fault Refusal :=
  if h : s.sp.val = 0 then raiseFault .stackUnderflow .ret 0 s
  else
    .next (setPc (s.stack[s.sp.val - 1]'(by omega)) { s with sp := ⟨s.sp.val - 1, by omega⟩ })

/-- 1NNN: "unconditional jump to NNN" (R123). -/
def execJp (nnn : Addr) (s : State) : Host.Outcome State Fault Refusal :=
  .next (setPc (zextAddr nnn) s)

/-- 2NNN: "push PC, set PC=NNN; fails with StackOverflow if SP==16"; the push writes slot SP (R124,
D15). -/
def execCall (nnn : Addr) (s : State) : Host.Outcome State Fault Refusal :=
  if h : s.sp.val < 16 then
    .next (setPc (zextAddr nnn)
      { s with stack := s.stack.set s.sp.val s.pc h, sp := ⟨s.sp.val + 1, by omega⟩ })
  else raiseFault .stackOverflow (.call nnn) 0 s

/-- 3XNN: skip if V[X] = NN (R125). -/
def execSeByte (x : RegIdx) (nn : Byte) (s : State) : Host.Outcome State Fault Refusal :=
  .next (skipIf (s.v[x] == nn) s)

/-- 4XNN: skip if V[X] ≠ NN (R126). -/
def execSneByte (x : RegIdx) (nn : Byte) (s : State) : Host.Outcome State Fault Refusal :=
  .next (skipIf (s.v[x] != nn) s)

/-- 5XYN: skip if V[X] = V[Y], for every low nibble (R127, R108). -/
def execSeReg (x y : RegIdx) (_n : Nibble) (s : State) : Host.Outcome State Fault Refusal :=
  .next (skipIf (s.v[x] == s.v[y]) s)

/-- 9XYN: skip if V[X] ≠ V[Y], for every low nibble; "Nothing else" (R128, R108). -/
def execSneReg (x y : RegIdx) (_n : Nibble) (s : State) : Host.Outcome State Fault Refusal :=
  .next (skipIf (s.v[x] != s.v[y]) s)

/-- BNNN: "PC = V0 + NNN" (R129). -/
def execJpV0 (nnn : Addr) (s : State) : Host.Outcome State Fault Refusal :=
  .next (setPc (indexedTarget s.v[0] nnn) s)

end Machine
end Sys2Proof
end

