-- ==== Sys2Proof/Machine/Display.lean ====
section
/-! DEFINITION. The display family (43_display.md). -/

namespace Sys2Proof
namespace Machine

/-- The column a sprite bit lands on (R166, R168). -/
def spriteCol (x0 b : Nat) : Col := ⟨(x0 + b) % 64, Nat.mod_lt _ (by decide)⟩

/-- The row a sprite row lands on (R166, R168). -/
def spriteRow (y0 r : Nat) : Row := ⟨(y0 + r) % 32, Nat.mod_lt _ (by decide)⟩

/-- A display being drawn on, and whether an on cell has been turned off so far. -/
abbrev Canvas := Display × Bool

/-- XOR of one cell; "on -> off is a collision" (R166). -/
def toggleCell (cx : Col) (cy : Row) (c : Canvas) : Canvas :=
  (c.1.set cx (c.1[cx].set cy (!c.1[cx][cy])), c.2 || c.1[cx][cy])

/-- Bit index b of a row byte, 0 the most significant; a clear bit leaves its cell alone (R167). -/
def drawBit (x0 y0 r : Nat) (row : Byte) (c : Canvas) (b : Nat) : Canvas :=
  if row.getLsbD (7 - b) then toggleCell (spriteCol x0 b) (spriteRow y0 r) c else c

/-- The eight bits of one sprite row (R166). -/
def drawRow (x0 y0 r : Nat) (row : Byte) (c : Canvas) : Canvas :=
  (List.range 8).foldl (drawBit x0 y0 r row) c

/-- The sprite rows from row index r on (R166). -/
def drawRows (x0 y0 r : Nat) : List Byte → Canvas → Canvas
  | [], c => c
  | row :: rest, c => drawRows x0 y0 (r + 1) rest (drawRow x0 y0 r row c)

/-- 00E0: every cell off (R165). -/
def execCls (s : State) : Host.Outcome State Fault Refusal :=
  .next { s with disp := Display.allOff }

/-- DXYN: the origin is read first, then VF is the collision flag of the draw (R166, R169); rows
beyond memory raise MemoryBounds before any write (R170). -/
def execDrw (x y : RegIdx) (n : Fin 16) (s : State) : Host.Outcome State Fault Refusal :=
  match readRange s.mem s.i.toNat n.val with
  | .error a => raiseFault .memoryBounds (.drw x y n) a s
  | .ok rows =>
    let c := drawRows (s.v[x].toNat % 64) (s.v[y].toNat % 32) 0 rows (s.disp, false)
    .next (setReg vf (collisionFlag c.2) { s with disp := c.1 })

end Machine
end Sys2Proof
end

