-- ==== Sys2Proof/Machine/MemTransfer.lean ====
section
/-! DEFINITION. The index register and memory block transfer (45_memory_transfer.md). -/

namespace Sys2Proof
namespace Machine

/-- `I <- w` (R26). -/
def setI (w : Word) (s : State) : State := { s with i := w }

/-- A store of several bytes from the address in I, all or nothing (R206). -/
def storeAtI (i : Instr) (bytes : List Byte) (s : State) : Host.Outcome State Fault Refusal :=
  match writeRange s.mem s.i.toNat bytes with
  | .error a => raiseFault .memoryBounds i a s
  | .ok m => .next { s with mem := m }

/-- The registers after FX65: V0 to V[X] from the bytes read, the others as before (R205). -/
def loadedRegs (v : Vector Byte 16) (bytes : List Byte) : Vector Byte 16 :=
  Vector.ofFn fun r : Fin 16 => bytes.getD r.val v[r]

/-- ANNN: `I <- NNN` (R200, D12). -/
def execLdI (nnn : Addr) (s : State) : Host.Outcome State Fault Refusal :=
  .next (setI (zextAddr nnn) s)

/-- FX1E: "I += VX (wraps modulo 65536; does not set VF)" (R201). -/
def execAddI (x : RegIdx) (s : State) : Host.Outcome State Fault Refusal :=
  .next (setI (s.i + zextByte s.v[x]) s)

/-- FX29: "I = VX × 5", the full byte (R202). -/
def execLdF (x : RegIdx) (s : State) : Host.Outcome State Fault Refusal :=
  .next (setI (glyphAddr s.v[x]) s)

/-- FX33: the decimal digits of V[X] at I, I+1, I+2 (R203). -/
def execLdB (x : RegIdx) (s : State) : Host.Outcome State Fault Refusal :=
  storeAtI (.ldB x) (bcdDigits s.v[x]) s

/-- FX55: V0 to V[X] at I, I+1, …; I is unchanged (R204). -/
def execStRegs (x : RegIdx) (s : State) : Host.Outcome State Fault Refusal :=
  storeAtI (.stRegs x) (regsUpTo s.v x) s

/-- FX65: V0 to V[X] from I, I+1, …; I is unchanged (R205, D13). -/
def execLdRegs (x : RegIdx) (s : State) : Host.Outcome State Fault Refusal :=
  match readRange s.mem s.i.toNat (regCount x) with
  | .error a => raiseFault .memoryBounds (.ldRegs x) a s
  | .ok bytes => .next { s with v := loadedRegs s.v bytes }

end Machine
end Sys2Proof
end

