-- ==== Sys2Proof/Machine/TimerIo.lean ====
section
/-! DEFINITION. The keypad, timer and I/O family (44_timer_io.md), and the timer tick. -/

namespace Sys2Proof
namespace Machine

/-- EX9E: skip if key[V[X]] is pressed; V[X] above 0x0F raises KeyIndexRange (R180, R181). -/
def execSkp (x : RegIdx) (s : State) : Host.Outcome State Fault Refusal :=
  match keyOf s.v[x] with
  | none => raiseFault .keyIndexRange (.skp x) s.v[x].toNat s
  | some k => .next (skipIf s.key[k] s)

/-- EXA1: skip if key[V[X]] is not pressed; V[X] above 0x0F raises KeyIndexRange (R180, R182). -/
def execSknp (x : RegIdx) (s : State) : Host.Outcome State Fault Refusal :=
  match keyOf s.v[x] with
  | none => raiseFault .keyIndexRange (.sknp x) s.v[x].toNat s
  | some k => .next (skipIf (!s.key[k]) s)

/-- FX07: "VX=delay" (R183). -/
def execLdVxDT (x : RegIdx) (s : State) : Host.Outcome State Fault Refusal :=
  .next (setReg x s.dt s)

/-- FX0A: V[X] becomes the highest pressed key; with none pressed, "re-decrement PC by 2 so the
same instruction re-executes next cycle" (R186). -/
def execLdVxK (x : RegIdx) (s : State) : Host.Outcome State Fault Refusal :=
  match scanKeys s.key with
  | some k => .next (setReg x (keyByte k) s)
  | none => .next (setPc (s.pc - 2) s)

/-- FX15: "delay=VX" (R184). -/
def execLdDTVx (x : RegIdx) (s : State) : Host.Outcome State Fault Refusal :=
  .next { s with dt := s.v[x] }

/-- FX18: "sound=VX" (R185). -/
def execLdSTVx (x : RegIdx) (s : State) : Host.Outcome State Fault Refusal :=
  .next { s with st := s.v[x] }

/-- One count down, "never negative" (R29, R195). -/
def countDown (t : Byte) : Byte := if t = 0#8 then 0#8 else t - 1#8

/-- The timer tick: both timers age, and `tone` is emitted when the tick decrements ST (R195, R196). -/
def timerTick (s : State) : State :=
  let aged : State := { s with dt := countDown s.dt, st := countDown s.st }
  if s.st = 0#8 then aged else emit .tone aged

end Machine
end Sys2Proof
end

