-- ==== Sys2Proof/Machine/Cycle.lean ====
section
/-! DEFINITION. The parts of a cycle around the execute phase (40_fetch_dispatch.md): the gate, the
fetch, the routing of an opcode, and the commit with its tick. Step.lean only puts them together. -/

namespace Sys2Proof
namespace Machine

/-- Why `runCycle` has no step in this state, if it has none (R112, R255). -/
def cycleGate (s : State) : Option Fault :=
  match s.phase with
  | .ready | .running => s.fault.map Fault.halted
  | p => some (.notAdmitted .runCycle p)

/-- The word at PC, or the first byte address that is not in memory, PC before PC + 1 (R101, R224). -/
def fetch (s : State) : Except Nat Word :=
  match memRead s.mem s.pc.toNat with
  | .error a => .error a
  | .ok hi =>
    match memRead s.mem (s.pc.toNat + 1) with
    | .error a => .error a
    | .ok lo => .ok (joinBytes hi lo)

/-- A fetch fault: opcode 0 is recorded, and the address read (R35, R222). -/
def fetchFault (a : Nat) (s : State) : State := takeFault .memoryBounds s.pc 0 a s

/-- The execute phase of an opcode that has been fetched: its instruction's meaning, or the
diagnostic of R109 where it has none. -/
def executeOpcode (op : Word) (s : State) : Host.Outcome State Fault Refusal :=
  match decode op with
  | .ok i => exec i s
  | .error _ => .next (unknownOpcode op s)

/-- The end of a cycle (R100, R111): one that took a fault commits the record and nothing more; any
other is RUNNING from now on and ticks. -/
def finishCycle : Host.Outcome State Fault Refusal → Host.Outcome State Fault Refusal
  | .next t =>
    if t.fault.isSome then .next t else .next (timerTick { t with phase := .running })
  | .fault f => .fault f
  | .refused r => .refused r

/-- One admitted `runCycle` (R100). -/
def runCycle (s : State) : Host.Outcome State Fault Refusal :=
  match fetch s with
  | .error a => .next (fetchFault a s)
  | .ok op => finishCycle (executeOpcode op (advancePc s))

/-- Where a word is put so that the next fetch reads it: the two bytes at PC, high byte first
(R61, R101). Where PC holds no fetchable address nothing is stored (log 11). -/
def placeWord (op : Word) (s : State) : State :=
  match writeRange s.mem s.pc.toNat [highByte op, lowByte op] with
  | .error _ => s
  | .ok m => { s with mem := m }

end Machine
end Sys2Proof
end

