-- ==== Sys2Proof/Machine/Step.lean ====
section
/-! DEFINITION. One step of the machine is one `runCycle()` (40_fetch_dispatch.md R100). -/

namespace Sys2Proof
namespace Machine

/-- `runCycle()`: no step where the gate says so (R112), else fetch, decode, execute and tick. -/
def step (s : State) : Host.Outcome State Fault Refusal :=
  match cycleGate s with
  | some f => .fault f
  | none => runCycle s

/-- `s` with the opcode-table word `w` stored where the next step fetches (log 11). -/
def State.withFetchWord (s : State) (nbits w : Nat) : State := placeWord (tableWord nbits w) s

end Machine
end Sys2Proof
end

