-- ==== Sys2Proof/Machine/Ports.lean ====
section
/-! DEFINITION. The host's ports (10_state.md R39): each operation is applied between cycles, one at
a time (R40, R70), in the phases the table of 70_reset_and_hazards.md R255 admits. -/

namespace Sys2Proof
namespace Machine

/-- What the collaborator that supplies a program hands over: its bytes, or the failure of its read
(R252, R253). -/
inductive RomSource where
  | bytes (bs : List Byte)
  | readFailure
  deriving DecidableEq, Repr

/-- A call of one of the host's operations with its inputs (R39). -/
inductive HostCall where
  | init
  | loadProgram (rom : RomSource)
  | runCycle
  | setKey (index : Nat) (pressed : Bool)
  | getDisplay
  | getKeys
  | readFault
  deriving DecidableEq, Repr

/-- What a call returns to the host. -/
inductive Response where
  /-- The operation returns nothing. -/
  | done
  /-- `loadProgram` fails: the program is longer than 3584 bytes (R253). -/
  | romTooLarge
  /-- `loadProgram` fails: the program could not be read (R253). -/
  | ioError
  /-- The 2048 pixel words (R240). -/
  | display (words : Vector (BitVec 32) 2048)
  /-- The 16 key flags (R242). -/
  | keys (flags : Vector Bool 16)
  /-- The fault record (R35). -/
  | faultRecord (record : Option FaultRecord)
  deriving DecidableEq, Repr

/-- The operation a call asks for. -/
def HostCall.op : HostCall → PortOp
  | .init => .init
  | .loadProgram _ => .loadProgram
  | .runCycle => .runCycle
  | .setKey _ _ => .setKey
  | .getDisplay => .getDisplay
  | .getKeys => .getKeys
  | .readFault => .readFault

/-- "Which host operation has a meaning in which phase" (R255). -/
def admitted : PortOp → Phase → Bool
  | .init, _ => true
  | .loadProgram, p => p == .ready
  | .runCycle, p => p == .ready || p == .running
  | .setKey, p => p != .uninit
  | .getDisplay, p => p != .uninit
  | .getKeys, p => p != .uninit
  | .readFault, p => p != .uninit

/-- `loadProgram`: the bytes are written from 0x200, or nothing is written and the phase is
LOAD_FAILED (R252, R253). -/
def loadProgram (rom : RomSource) (s : State) : State × Response :=
  match rom with
  | .readFailure => ({ s with phase := .loadFailed }, .ioError)
  | .bytes bs =>
    if bs.length > Config.maxRom then ({ s with phase := .loadFailed }, .romTooLarge)
    else ({ s with mem := s.mem.putBytes Config.progBase bs }, .done)

/-- `setKey`: "if index < 16: key[index] <- pressed; else: no effect" (R241). -/
def setKey (index : Nat) (pressed : Bool) (s : State) : State :=
  if h : index < 16 then { s with key := s.key.set index pressed h } else s

/-- A cell as "a 32-bit pixel value" (R32). -/
def pixelWord (on : Bool) : BitVec 32 := if on then Config.pixelOn else Config.pixelOff

/-- `getDisplay`: cell (x, y) is the word at index y × 64 + x (R240, D19). -/
def displayWords (d : Display) : Vector (BitVec 32) 2048 :=
  Vector.ofFn fun k : Fin 2048 => pixelWord (d[k.val % 64]'(by omega))[k.val / 64]

/-- One operation of the host (R39), or the stop of one that the phase does not admit (R255). -/
def hostCall (c : HostCall) (s : State) : Host.Outcome (State × Response) Fault Refusal :=
  if admitted c.op s.phase then
    match c with
    | .init => .next (initCore s, .done)
    | .loadProgram rom => .next (loadProgram rom s)
    | .runCycle =>
      match step s with
      | .next t => .next (t, .done)
      | .fault f => .fault f
      | .refused r => .refused r
    | .setKey index pressed => .next (setKey index pressed s, .done)
    | .getDisplay => .next (s, .display (displayWords s.disp))
    | .getKeys => .next (s, .keys s.key)
    | .readFault => .next (s, .faultRecord s.fault)
  else .fault (.notAdmitted c.op s.phase)

/-- A sequence of host operations in order (R40, R70), stopping at the first that has no step. -/
def hostCalls : List HostCall → State → Host.Outcome State Fault Refusal
  | [], s => .next s
  | c :: cs, s =>
    match hostCall c s with
    | .next (t, _) => hostCalls cs t
    | .fault f => .fault f
    | .refused r => .refused r

end Machine
end Sys2Proof
end

