-- ==== Sys2Proof/Safety.lean ====
section
/-! DEFINITION. The terms statements use: when a cycle can run, when a run has ended (R256), the
invariant of the machine, and the frame of an instruction. -/

namespace Sys2Proof
namespace Machine

/-- `runCycle` has a meaning: "only when the phase is READY or RUNNING and no fault is recorded"
(R112). -/
def State.runnable (s : State) : Prop :=
  (s.phase = .ready ∨ s.phase = .running) ∧ s.fault = none

/-- How a run ends (R256). -/
inductive RunEnd where
  /-- "in failure when a fault is recorded". -/
  | failure (record : FaultRecord)
  /-- "in success at the first cycle boundary where the word at PC is 1NNN with NNN = PC". -/
  | success
  deriving DecidableEq, Repr

/-- The word at PC is a jump to itself (R256). -/
def selfJump (s : State) : Bool :=
  match fetch s with
  | .ok op => opFamily op == 0x1 && s.pc == (opNNN op).setWidth 16
  | .error _ => false

/-- Whether a run has ended at this cycle boundary, and how (R256). -/
def runEnd (s : State) : Option RunEnd :=
  match s.fault with
  | some r => some (.failure r)
  | none => if selfJump s then some .success else none

/-- A safe state: no in-cycle error is recorded (R220). -/
def State.safe (s : State) : Prop := s.fault = none

/-- What a fault record says of itself (R221, R222): the offending address of a MemoryBounds is
outside memory, the key index of a KeyIndexRange is a byte above 15, and a stack fault records 0. -/
def FaultRecord.sound (r : FaultRecord) : Prop :=
  match r.kind with
  | .stackOverflow | .stackUnderflow => r.addr = 0
  | .memoryBounds => 4096 ≤ r.addr ∧ r.addr < 65536
  | .keyIndexRange => 15 < r.addr ∧ r.addr < 256

/-- The invariant: memory is in canonical form; every return address is one a fetch can have left
(at most 0x1000); PC is at most 0x10FE, "the largest target any instruction computes" (R25); a fault
record is sound and carries the address PC holds. -/
def State.Inv (s : State) : Prop :=
  s.mem.wf = true ∧
  (∀ k : Fin 16, s.stack[k].toNat ≤ 0x1000) ∧
  s.pc.toNat ≤ 0x10FE ∧
  ∀ r, s.fault = some r → r.sound ∧ r.pc = s.pc

/-- The parts of the state a frame tells apart. -/
inductive Part where
  /-- A general register. -/
  | reg (x : RegIdx)
  /-- The index register I. -/
  | index
  /-- PC. -/
  | pc
  /-- SP. -/
  | sp
  /-- A slot of the call stack. -/
  | slot (k : Fin 16)
  /-- The delay timer. -/
  | delay
  /-- The sound timer. -/
  | sound
  /-- A byte of memory. -/
  | byte (a : Nat)
  /-- The display. -/
  | display
  /-- The outputs emitted (the model's record, log 3). -/
  | outputs
  /-- The oracle's position (the model's counter, log 2). -/
  | oracle
  deriving DecidableEq, Repr

/-- Everything outside the parts named is the same in `t` as in `s`. The keypad, the phase, the fault
record and the parameter FONT are the same always: no part names them. -/
structure Frame (parts : List Part) (s t : State) : Prop where
  reg : ∀ x, Part.reg x ∉ parts → t.v[x] = s.v[x]
  index : Part.index ∉ parts → t.i = s.i
  pc : Part.pc ∉ parts → t.pc = s.pc
  sp : Part.sp ∉ parts → t.sp = s.sp
  slot : ∀ k, Part.slot k ∉ parts → t.stack[k] = s.stack[k]
  delay : Part.delay ∉ parts → t.dt = s.dt
  sound : Part.sound ∉ parts → t.st = s.st
  byte : ∀ a, Part.byte a ∉ parts → t.mem.byte a = s.mem.byte a
  display : Part.display ∉ parts → t.disp = s.disp
  outputs : Part.outputs ∉ parts → t.events = s.events
  oracle : Part.oracle ∉ parts → t.draws = s.draws
  key : t.key = s.key
  phase : t.phase = s.phase
  fault : t.fault = s.fault
  font : t.mem.font = s.mem.font

/-- The instruction completes with an effect that `post` describes, and with nothing outside `parts`
changed: `exec` answers a next state. -/
def Completes (i : Instr) (s : State) (parts : List Part) (post : State → Prop) : Prop :=
  ∃ t, exec i s = .next t ∧ post t ∧ Frame parts s t

/-- Fault entry as the execute phase takes it (R222): the record is written, PC is the address of the
instruction (two below where the fetch left it) and nothing else is changed. -/
def TakesFault (i : Instr) (s : State) (kind : FaultKind) (op : Word) (addr : Nat) : Prop :=
  exec i s = .next { s with
    pc := s.pc - 2
    fault := some { kind := kind, pc := s.pc - 2, opcode := op, addr := addr } }

/-! The words of the three formats as the numbers their hexadecimal digits write (R9, R81), said
without the encoder or the decoder. -/

/-- F NNN. -/
def wordNNN (f : Nat) (nnn : Addr) : Word := BitVec.ofNat 16 (f * 0x1000 + nnn.toNat)

/-- F X NN. -/
def wordXNN (f : Nat) (x : RegIdx) (nn : Byte) : Word :=
  BitVec.ofNat 16 (f * 0x1000 + x.val * 0x100 + nn.toNat)

/-- F X Y N. -/
def wordXYN (f : Nat) (x y : RegIdx) (n : Nat) : Word :=
  BitVec.ofNat 16 (f * 0x1000 + x.val * 0x100 + y.val * 0x10 + n)

/-- A row of the opcode map (R84): the pattern, the mask and the match. -/
structure MapRow where
  pattern : String
  mask : Word
  select : Word
  deriving DecidableEq, Repr

/-- The opcode map, rows in the order they are tried (R84), the families 0x0 to 0x7. -/
def opcodeMapLow : List MapRow :=
  [⟨"00E0", 0xFFFF, 0x00E0⟩, ⟨"00EE", 0xFFFF, 0x00EE⟩, ⟨"0NNN", 0xF000, 0x0000⟩,
   ⟨"1NNN", 0xF000, 0x1000⟩, ⟨"2NNN", 0xF000, 0x2000⟩, ⟨"3XNN", 0xF000, 0x3000⟩,
   ⟨"4XNN", 0xF000, 0x4000⟩, ⟨"5XY0", 0xF000, 0x5000⟩, ⟨"6XNN", 0xF000, 0x6000⟩,
   ⟨"7XNN", 0xF000, 0x7000⟩]

/-- The rows of the families 0x8 to 0xD (R84). -/
def opcodeMapMid : List MapRow :=
  [⟨"8XY0", 0xF00F, 0x8000⟩, ⟨"8XY1", 0xF00F, 0x8001⟩, ⟨"8XY2", 0xF00F, 0x8002⟩,
   ⟨"8XY3", 0xF00F, 0x8003⟩, ⟨"8XY4", 0xF00F, 0x8004⟩, ⟨"8XY5", 0xF00F, 0x8005⟩,
   ⟨"8XY6", 0xF00F, 0x8006⟩, ⟨"8XY7", 0xF00F, 0x8007⟩, ⟨"8XYE", 0xF00F, 0x800E⟩,
   ⟨"9XY0", 0xF000, 0x9000⟩, ⟨"ANNN", 0xF000, 0xA000⟩, ⟨"BNNN", 0xF000, 0xB000⟩,
   ⟨"CXNN", 0xF000, 0xC000⟩, ⟨"DXYN", 0xF000, 0xD000⟩]

/-- The rows of the families 0xE and 0xF (R84). -/
def opcodeMapHigh : List MapRow :=
  [⟨"EX9E", 0xF0FF, 0xE09E⟩, ⟨"EXA1", 0xF0FF, 0xE0A1⟩, ⟨"FX07", 0xF0FF, 0xF007⟩,
   ⟨"FX0A", 0xF0FF, 0xF00A⟩, ⟨"FX15", 0xF0FF, 0xF015⟩, ⟨"FX18", 0xF0FF, 0xF018⟩,
   ⟨"FX1E", 0xF0FF, 0xF01E⟩, ⟨"FX29", 0xF0FF, 0xF029⟩, ⟨"FX33", 0xF0FF, 0xF033⟩,
   ⟨"FX55", 0xF0FF, 0xF055⟩, ⟨"FX65", 0xF0FF, 0xF065⟩]

/-- The row an opcode selects: the first with `op & mask == match` (R84). -/
def selectedRow (op : Word) : Option MapRow :=
  (opcodeMapLow ++ opcodeMapMid ++ opcodeMapHigh).find? fun r => op &&& r.mask == r.select

/-- The pattern of the row an instruction stands for (R84). -/
def patternOf : Instr → String
  | .cls => "00E0"
  | .ret => "00EE"
  | .sys _ => "0NNN"
  | .jp _ => "1NNN"
  | .call _ => "2NNN"
  | .seByte _ _ => "3XNN"
  | .sneByte _ _ => "4XNN"
  | .seReg _ _ _ => "5XY0"
  | .ldByte _ _ => "6XNN"
  | .addByte _ _ => "7XNN"
  | .ldReg _ _ => "8XY0"
  | .orReg _ _ => "8XY1"
  | .andReg _ _ => "8XY2"
  | .xorReg _ _ => "8XY3"
  | .addReg _ _ => "8XY4"
  | .subReg _ _ => "8XY5"
  | .shr _ _ => "8XY6"
  | .subn _ _ => "8XY7"
  | .shl _ _ => "8XYE"
  | .sneReg _ _ _ => "9XY0"
  | .ldI _ => "ANNN"
  | .jpV0 _ => "BNNN"
  | .rnd _ _ => "CXNN"
  | .drw _ _ _ => "DXYN"
  | .skp _ => "EX9E"
  | .sknp _ => "EXA1"
  | .ldVxDT _ => "FX07"
  | .ldVxK _ => "FX0A"
  | .ldDTVx _ => "FX15"
  | .ldSTVx _ => "FX18"
  | .addI _ => "FX1E"
  | .ldF _ => "FX29"
  | .ldB _ => "FX33"
  | .stRegs _ => "FX55"
  | .ldRegs _ => "FX65"

/-- The word at PC, high byte first (R61), for a PC a fetch succeeds at. -/
def State.wordAtPc (s : State) : Word :=
  BitVec.ofNat 16 ((s.mem.byte s.pc.toNat).toNat * 256 + (s.mem.byte (s.pc.toNat + 1)).toNat)

/-- This state's next cycle fetches the word `op`: the core can run and PC is at most 0xFFE (R101,
R112). -/
def State.fetches (s : State) (op : Word) : Prop :=
  s.runnable ∧ s.pc.toNat ≤ 0xFFE ∧ s.wordAtPc = op

/-- This state's next cycle executes the instruction `i`. -/
def State.executes (s : State) (i : Instr) : Prop :=
  s.runnable ∧ s.pc.toNat ≤ 0xFFE ∧ decode s.wordAtPc = .ok i

/-- Every sprite byte of a draw is in memory; one of no rows reads none (R166, R170). -/
def spriteInMemory (s : State) (n : Fin 16) : Prop := n.val = 0 ∨ s.i.toNat + n.val ≤ 4096

/-- Bit index b of sprite row r, 0 the most significant (R167). -/
def spriteBit (s : State) (r b : Nat) : Bool := (s.mem.byte (s.i.toNat + r)).getLsbD (7 - b)

/-- The column of bit index b of a sprite at column VX (R166, R168). -/
def spriteX (s : State) (x : RegIdx) (b : Nat) : Col := Fin.ofNat 64 (s.v[x].toNat % 64 + b)

/-- The row of sprite row r of a sprite at row VY (R166, R168). -/
def spriteY (s : State) (y : RegIdx) (r : Nat) : Row := Fin.ofNat 32 (s.v[y].toNat % 32 + r)

end Machine
end Sys2Proof
end

