-- ==== Sys2Proof/Certificates/Slice0/Obligations.lean ====
section
/-! DEFINITION. The statements. A docstring names the rule of spec/ a statement formalises; where it
rests on a decision of spec/92_eei_decisions.md (the spec's own choice) or on a log entry of this
model, it says so. `Completes i s parts post` says that `exec` ANSWERS a next state, that `post` holds
of it, and that nothing outside `parts` differs; in it PC is the address after the instruction
(R12). -/

open Sys2Proof Sys2Proof.Machine

/-! ## Encoding and decoding -/

/-- Decoding the encoding of a well-formed instruction gives it back, every operand at every value
its field admits, as a word (R81, R84) and as two bytes in memory order (R61, R80). -/
def Obligations.DecodeInvertsEncode : Prop :=
  ∀ (i : Instr) (rest : List Byte), i.wellFormed = true →
    decode (encode i) = .ok i ∧ decodeBytes (encodeBytes i ++ rest) = .ok (i, rest)

/-- Every decoded word is the encoding of what it decodes to, and that is well-formed: decoding loses
no bit of the word (R81, R84; the ignored nibble and Y are kept, log 7). -/
def Obligations.EncodeInvertsDecode : Prop :=
  ∀ (op : Word) (i : Instr), decode op = .ok i → i.wellFormed = true ∧ encode i = op

/-- The decoder agrees with the mask and match columns of the opcode map on all 65536 words: it gives
the instruction of the first row that selects the word, and rejects the words no row selects (R84,
R85, R110; some rows rest on D9, D10, D12). -/
def Obligations.DecoderAgreesWithOpcodeMap : Prop :=
  ∀ op : Word,
    match decode op with
    | .ok i => (selectedRow op).map MapRow.pattern = some (patternOf i)
    | .error e => selectedRow op = none ∧ e = .unknownOpcode op

/-- Families 0x8, 0xE and 0xF route on N and on NN as R105, R106 and R107 list, and every other value
of the routed field is an unknown opcode. -/
def Obligations.SubFamiliesRouteAsListed : Prop :=
  (∀ (x y : RegIdx) (n : Fin 16),
    decode (wordXYN 8 x y n.val) =
      (([(0, .ldReg x y), (1, .orReg x y), (2, .andReg x y), (3, .xorReg x y), (4, .addReg x y),
         (5, .subReg x y), (6, .shr x y), (7, .subn x y), (0xE, .shl x y)] :
          List (Nat × Instr)).lookup n.val).elim
        (.error (.unknownOpcode (wordXYN 8 x y n.val))) .ok) ∧
  (∀ (x : RegIdx) (nn : Byte),
    decode (wordXNN 0xE x nn) =
      (([(0x9E, .skp x), (0xA1, .sknp x)] : List (Nat × Instr)).lookup nn.toNat).elim
        (.error (.unknownOpcode (wordXNN 0xE x nn))) .ok) ∧
  (∀ (x : RegIdx) (nn : Byte),
    decode (wordXNN 0xF x nn) =
      (([(0x07, .ldVxDT x), (0x0A, .ldVxK x), (0x15, .ldDTVx x), (0x18, .ldSTVx x),
         (0x1E, .addI x), (0x29, .ldF x), (0x33, .ldB x), (0x55, .stRegs x), (0x65, .ldRegs x)] :
          List (Nat × Instr)).lookup nn.toNat).elim
        (.error (.unknownOpcode (wordXNN 0xF x nn))) .ok)

/-- The decode examples of R90: words written out from the encoding decode to what they stand for. -/
def Obligations.WorkedDecodeExamples : Prop :=
  decode 0x8124 = .ok (.addReg 1 2) ∧ decode 0xD015 = .ok (.drw 0 1 5) ∧
  decode 0xF233 = .ok (.ldB 2) ∧ decode 0x00EE = .ok .ret ∧ decode 0x0123 = .ok (.sys 0x123) ∧
  decode 0x5121 = .ok (.seReg 1 2 1) ∧ decode 0x8128 = .error (.unknownOpcode 0x8128) ∧
  decode 0xE1A2 = .error (.unknownOpcode 0xE1A2)

/-! ## The cycle -/

/-- A step runs the decoded instruction: where the core can run and the two bytes at PC, high byte
first, decode to `i`, `exec` of `i` at the state with PC moved past the word answers a next state
`t`; the step is `t` itself if a fault was taken, and otherwise `t` with the phase RUNNING and the
timers ticked (R100, R101, R111; the abort rests on D3, the outcome's form on log 4). -/
def Obligations.StepRunsDecodedInstruction : Prop :=
  ∀ (s : State) (i : Instr), s.executes i →
    ∃ t, exec i { s with pc := s.pc + 2 } = .next t ∧
      (t.fault = none → step s = .next (timerTick { t with phase := .running })) ∧
      (t.fault ≠ none → step s = .next t)

/-- The tick: each timer above zero loses one and stops at zero, `tone` is emitted exactly when ST
was above zero, and nothing else is changed (R195, R196; one event per cycle is D20). -/
def Obligations.TickAgesBothTimers : Prop :=
  ∀ s : State,
    (timerTick s).dt.toNat = s.dt.toNat - 1 ∧ (timerTick s).st.toNat = s.st.toNat - 1 ∧
    (timerTick s).events = s.events ++ (if s.st.toNat > 0 then [.tone] else []) ∧
    timerTick s =
      { s with dt := (timerTick s).dt, st := (timerTick s).st, events := (timerTick s).events }

/-- In a cycle that completes, each timer ages by exactly one from the value it has after the execute
phase, which is V[X] for FX15 and FX18 and otherwise the value at the cycle's start, and `tone` is
emitted once exactly when the sound timer was above zero then (R184, R185, R195, R196; D3, D20). -/
def Obligations.CompletedCycleAgesTimersByOne : Prop :=
  ∀ s t : State, step s = .next t → t.fault = none →
    let dtBefore : Byte := match decode s.wordAtPc with
      | .ok (.ldDTVx x) => s.v[x]
      | _ => s.dt
    let stBefore : Byte := match decode s.wordAtPc with
      | .ok (.ldSTVx x) => s.v[x]
      | _ => s.st
    t.dt.toNat = dtBefore.toNat - 1 ∧ t.st.toNat = stBefore.toNat - 1 ∧
    t.events.count .tone = s.events.count .tone + (if stBefore.toNat > 0 then 1 else 0)

/-- Over any number of completed cycles none of which executes FX15, the delay timer goes down by the
number of cycles and stops at zero (the property of R197, which R195 derives). -/
def Obligations.DelayTimerCountsCycles : Prop :=
  ∀ (k : Nat) (s t : State), core.run k s = .next t → t.fault = none →
    (∀ (j : Nat) (u : State) (x : RegIdx), j < k → core.run j s = .next u →
      decode u.wordAtPc ≠ .ok (.ldDTVx x)) →
    t.dt.toNat = s.dt.toNat - k

/-- An unknown opcode is non-fatal: the cycle emits `UnknownOpcode(op, pc0)`, moves PC on by 2 and
ages the timers, and nothing else is changed but the phase (R109; no count is kept, D16). -/
def Obligations.UnknownOpcodeCycleCompletes : Prop :=
  ∀ (s : State) (op : Word) (e : Rejection), s.fetches op → decode op = .error e →
    step s = .next { s with
      pc := s.pc + 2
      dt := s.dt - (if s.dt.toNat > 0 then 1 else 0)
      st := s.st - (if s.st.toNat > 0 then 1 else 0)
      phase := .running
      events := s.events ++ [.unknownOpcode op s.pc] ++ (if s.st.toNat > 0 then [.tone] else []) }

/-- A fetch succeeds exactly when PC ≤ 0xFFE, also at an odd PC, and gives the big-endian word (R61,
R65, R101; the limit is D5 and D6). -/
def Obligations.FetchReadsBigEndianWord : Prop :=
  ∀ s : State,
    (s.pc.toNat ≤ 0xFFE → ∃ w, fetch s = .ok w ∧ w.toNat =
      (s.mem.byte s.pc.toNat).toNat * 256 + (s.mem.byte (s.pc.toNat + 1)).toNat) ∧
    (0xFFE < s.pc.toNat → fetch s = .error (max s.pc.toNat 0x1000))

/-- A fetch fault writes the record MemoryBounds with opcode 0 and the first byte address outside
memory, PC before PC + 1, and changes nothing else (R101, R222, R224; D3, D5, D6). -/
def Obligations.FetchFaultIsRecorded : Prop :=
  ∀ s : State, s.runnable → 0xFFE < s.pc.toNat →
    step s = .next { s with
      fault := some { kind := .memoryBounds, pc := s.pc, opcode := 0, addr := max s.pc.toNat 0x1000 } }

/-- Faults are precise: a step that leaves a fault recorded changed NOTHING but the fault record, which
names the address of the faulting instruction and its word (0 where the fetch itself failed) and is
sound for its kind (R111, R222, R223; D3). -/
def Obligations.FaultsArePrecise : Prop :=
  ∀ s t : State, step s = .next t → t.fault ≠ none →
    ∃ r : FaultRecord, t = { s with fault := some r } ∧ r.sound ∧ r.pc = s.pc ∧
      ((s.pc.toNat ≤ 0xFFE ∧ r.opcode = s.wordAtPc) ∨ (0xFFE < s.pc.toNat ∧ r.opcode = 0))

/-- A state steps to a next state exactly when it is runnable; a halted core and a phase that does
not admit `runCycle` have no step, under these names (R112, R255; D2, D3). The form of the stops is
the model's choice (log 4), and so is that the phase is the name given where a fault is recorded in
UNINIT or LOAD_FAILED too (DESIGN CHOICE, log 14). -/
def Obligations.StepExactlyWhenRunnable : Prop :=
  ∀ s : State,
    (s.runnable → ∃ t, step s = .next t) ∧
    (∀ r, s.phase = .ready ∨ s.phase = .running → s.fault = some r → step s = .fault (.halted r)) ∧
    (s.phase = .uninit ∨ s.phase = .loadFailed →
      step s = .fault (.notAdmitted .runCycle s.phase))

/-- Every step keeps the invariant: memory stays in canonical form, every return address at most
0x1000, PC at most 0x10FE (so the 16-bit wrap of R25 is never reached), and a recorded fault sound and
at the address PC holds. -/
def Obligations.StepKeepsInvariant : Prop :=
  ∀ s t : State, s.Inv → step s = .next t → t.Inv

/-- The reset state meets the invariant, whatever the font. -/
def Obligations.ResetMeetsInvariant : Prop :=
  State.reset.Inv ∧ ∀ font : Config.Font, (State.resetWith font).Inv

/-! ## Control flow -/

/-- 1NNN jumps to NNN, whatever NNN is, and changes nothing else; a jump to its own address repeats
forever (R123). -/
def Obligations.JumpGoesToItsAddress : Prop :=
  (∀ (nnn : Addr) (s : State), decode (wordNNN 1 nnn) = .ok (.jp nnn) ∧
    Completes (.jp nnn) s [.pc] fun t => t.pc.toNat = nnn.toNat) ∧
  (∀ (k : Nat) (nnn : Addr) (s : State), s.fetches (wordNNN 1 nnn) → s.pc.toNat = nnn.toNat →
    ∃ t, core.run k s = .next t ∧ t.pc = s.pc ∧ t.fetches (wordNNN 1 nnn))

/-- BNNN jumps to V0 + NNN, always V0, with no wrap, and changes nothing else; a target of 0xFFF or
more makes the next fetch fault (R129; that fetch limit is D5 and D6). -/
def Obligations.IndexedJumpAddsV0 : Prop :=
  ∀ (nnn : Addr) (s : State), decode (wordNNN 0xB nnn) = .ok (.jpV0 nnn) ∧
    Completes (.jpV0 nnn) s [.pc] fun t =>
      t.pc.toNat = s.v[0].toNat + nnn.toNat ∧ t.pc.toNat ≤ 0x10FE ∧
      (0xFFF ≤ t.pc.toNat → fetch t = .error (max t.pc.toNat 0x1000))

/-- 2NNN with a free slot pushes the address after it into slot SP, adds one to SP and jumps to NNN;
with SP = 16 it takes StackOverflow (R124; which slot is D15, the fault's form D3, D4). -/
def Obligations.CallPushesReturnAddress : Prop :=
  ∀ (nnn : Addr) (s : State), decode (wordNNN 2 nnn) = .ok (.call nnn) ∧
    (∀ h : s.sp.val < 16, Completes (.call nnn) s [.pc, .sp, .slot ⟨s.sp.val, h⟩] fun t =>
      t.pc.toNat = nnn.toNat ∧ t.sp.val = s.sp.val + 1 ∧ t.stack[s.sp.val] = s.pc) ∧
    (s.sp.val = 16 → TakesFault (.call nnn) s .stackOverflow (wordNNN 2 nnn) 0)

/-- 00EE with SP above 0 takes one from SP and jumps to the address in slot SP, which keeps its value;
with SP = 0 it takes StackUnderflow (R122; D3, D4, D15). -/
def Obligations.ReturnPopsIntoPc : Prop :=
  ∀ s : State, decode 0x00EE = .ok .ret ∧
    (∀ h : 0 < s.sp.val, Completes .ret s [.pc, .sp] fun t =>
      t.sp.val + 1 = s.sp.val ∧ t.pc = s.stack[s.sp.val - 1]) ∧
    (s.sp.val = 0 → TakesFault .ret s .stackUnderflow 0x00EE 0)

/-- "`2NNN` followed by `00EE` restores PC to the instruction after the original call, for any NNN",
and SP with it; only the slot that held the return address has changed. -/
def Obligations.ReturnAfterCallComesBack : Prop :=
  ∀ (nnn : Addr) (s : State) (h : s.sp.val < 16),
    ∃ t u, exec (.call nnn) s = .next t ∧ exec .ret t = .next u ∧
      Frame [.slot ⟨s.sp.val, h⟩] s u

/-- 3XNN and 4XNN skip the next word, PC + 2, when V[X] = NN and when V[X] ≠ NN, and change nothing
else (R125, R126). -/
def Obligations.SkipOnByteComparison : Prop :=
  ∀ (x : RegIdx) (nn : Byte) (s : State),
    decode (wordXNN 3 x nn) = .ok (.seByte x nn) ∧ decode (wordXNN 4 x nn) = .ok (.sneByte x nn) ∧
    (Completes (.seByte x nn) s [.pc] fun t => t.pc = if s.v[x] = nn then s.pc + 2 else s.pc) ∧
    (Completes (.sneByte x nn) s [.pc] fun t => t.pc = if s.v[x] = nn then s.pc else s.pc + 2)

/-- 5XYN and 9XYN skip the next word when V[X] = V[Y] and when V[X] ≠ V[Y], whatever the low nibble,
and change nothing else, I among it (R108, R127, R128; every low nibble is D10). -/
def Obligations.SkipOnRegisterComparison : Prop :=
  ∀ (x y : RegIdx) (n : Nibble) (s : State),
    decode (wordXYN 5 x y n.toNat) = .ok (.seReg x y n) ∧
    decode (wordXYN 9 x y n.toNat) = .ok (.sneReg x y n) ∧
    (Completes (.seReg x y n) s [.pc] fun t =>
      t.pc = if s.v[x] = s.v[y] then s.pc + 2 else s.pc) ∧
    (Completes (.sneReg x y n) s [.pc] fun t =>
      t.pc = if s.v[x] = s.v[y] then s.pc else s.pc + 2)

/-- 0NNN other than 00E0 and 00EE executes as an unknown opcode: it emits the diagnostic with its
word and its address and changes nothing else (R121; D9). -/
def Obligations.SysOnlyReportsItself : Prop :=
  ∀ (nnn : Addr) (s : State), nnn ≠ 0x0E0 → nnn ≠ 0x0EE →
    decode (wordNNN 0 nnn) = .ok (.sys nnn) ∧
    Completes (.sys nnn) s [.outputs] fun t =>
      t.events = s.events ++ [.unknownOpcode (wordNNN 0 nnn) (s.pc - 2)]

/-- SP counts 0 to 16, is 0 at reset and is written by 2NNN (+1) and 00EE (−1) only (R27). -/
def Obligations.OnlyCallAndReturnMoveSp : Prop :=
  State.reset.sp.val = 0 ∧
  ∀ s t : State, step s = .next t → s.sp.val ≤ 16 ∧ t.sp.val ≤ 16 ∧
    (t.sp = s.sp ∨
      (∃ nnn, decode s.wordAtPc = .ok (.call nnn) ∧ t.sp.val = s.sp.val + 1) ∨
      (decode s.wordAtPc = .ok .ret ∧ t.sp.val + 1 = s.sp.val))

/-! ## ALU -/

/-- 6XNN loads NN into V[X], for every X, and changes nothing else (R141). -/
def Obligations.LoadByteSetsRegister : Prop :=
  ∀ (x : RegIdx) (nn : Byte) (s : State), decode (wordXNN 6 x nn) = .ok (.ldByte x nn) ∧
    Completes (.ldByte x nn) s [.reg x] fun t => t.v[x] = nn

/-- 7XNN adds NN to V[X] modulo 256 and writes no flag: with X ≠ 0xF, VF is unchanged (R142). -/
def Obligations.AddByteWrapsWithoutFlag : Prop :=
  ∀ (x : RegIdx) (nn : Byte) (s : State), decode (wordXNN 7 x nn) = .ok (.addByte x nn) ∧
    Completes (.addByte x nn) s [.reg x] fun t => t.v[x].toNat = (s.v[x].toNat + nn.toNat) % 256

/-- 8XY0 to 8XY3: V[X] becomes V[Y], or the OR, AND or XOR of the two, bit by bit, and VF ends 0, for
X = 0xF too (R143 to R146; the flag's value 0 is D11). -/
def Obligations.MoveAndLogicClearVf : Prop :=
  ∀ (x y : RegIdx) (s : State),
    decode (wordXYN 8 x y 0) = .ok (.ldReg x y) ∧ decode (wordXYN 8 x y 1) = .ok (.orReg x y) ∧
    decode (wordXYN 8 x y 2) = .ok (.andReg x y) ∧ decode (wordXYN 8 x y 3) = .ok (.xorReg x y) ∧
    (Completes (.ldReg x y) s [.reg x, .reg vf] fun t =>
      (x ≠ vf → t.v[x] = s.v[y]) ∧ t.v[vf] = 0) ∧
    (Completes (.orReg x y) s [.reg x, .reg vf] fun t =>
      (x ≠ vf → ∀ b, t.v[x].getLsbD b = (s.v[x].getLsbD b || s.v[y].getLsbD b)) ∧ t.v[vf] = 0) ∧
    (Completes (.andReg x y) s [.reg x, .reg vf] fun t =>
      (x ≠ vf → ∀ b, t.v[x].getLsbD b = (s.v[x].getLsbD b && s.v[y].getLsbD b)) ∧ t.v[vf] = 0) ∧
    (Completes (.xorReg x y) s [.reg x, .reg vf] fun t =>
      (x ≠ vf → ∀ b, t.v[x].getLsbD b = (s.v[x].getLsbD b ^^ s.v[y].getLsbD b)) ∧ t.v[vf] = 0)

/-- 8XY4: V[X] is the sum modulo 256 and VF is 1 if the sum exceeds 255, else 0; with X = 0xF the
flag is what VF holds (R147). -/
def Obligations.AddSetsCarry : Prop :=
  ∀ (x y : RegIdx) (s : State), decode (wordXYN 8 x y 4) = .ok (.addReg x y) ∧
    Completes (.addReg x y) s [.reg x, .reg vf] fun t =>
      (x ≠ vf → t.v[x].toNat = (s.v[x].toNat + s.v[y].toNat) % 256) ∧
      t.v[vf].toNat = if s.v[x].toNat + s.v[y].toNat > 255 then 1 else 0

/-- 8XY5 and 8XY7: V[X] is the difference modulo 256, VX − VY and VY − VX, and VF is 1 exactly when
the minuend is strictly greater before the instruction; with X = 0xF the flag is what VF holds (R148,
R150). -/
def Obligations.SubtractSetsStrictFlag : Prop :=
  ∀ (x y : RegIdx) (s : State),
    decode (wordXYN 8 x y 5) = .ok (.subReg x y) ∧ decode (wordXYN 8 x y 7) = .ok (.subn x y) ∧
    (Completes (.subReg x y) s [.reg x, .reg vf] fun t =>
      (x ≠ vf → t.v[x].toNat = (256 + s.v[x].toNat - s.v[y].toNat) % 256) ∧
      t.v[vf].toNat = if s.v[x].toNat > s.v[y].toNat then 1 else 0) ∧
    (Completes (.subn x y) s [.reg x, .reg vf] fun t =>
      (x ≠ vf → t.v[x].toNat = (256 + s.v[y].toNat - s.v[x].toNat) % 256) ∧
      t.v[vf].toNat = if s.v[y].toNat > s.v[x].toNat then 1 else 0)

/-- 8XY6 and 8XYE: V[X] is halved, or doubled modulo 256, whatever Y names, and VF is the bit shifted
out, the old bit 0 or bit 7; with X = 0xF the flag is what VF holds (R149, R151). -/
def Obligations.ShiftsReportTheBitOut : Prop :=
  ∀ (x y : RegIdx) (s : State),
    decode (wordXYN 8 x y 6) = .ok (.shr x y) ∧ decode (wordXYN 8 x y 0xE) = .ok (.shl x y) ∧
    (Completes (.shr x y) s [.reg x, .reg vf] fun t =>
      (x ≠ vf → t.v[x].toNat = s.v[x].toNat / 2) ∧ t.v[vf].toNat = s.v[x].toNat % 2) ∧
    (Completes (.shl x y) s [.reg x, .reg vf] fun t =>
      (x ≠ vf → t.v[x].toNat = s.v[x].toNat * 2 % 256) ∧ t.v[vf].toNat = s.v[x].toNat / 128)

/-- CXNN: V[X] is the drawn byte AND NN, so a subset of NN's bits, one draw is used up, and no flag is
written, whatever the oracle's bytes are (R152; the oracle is D17, its numbering log 2). -/
def Obligations.RandomByteIsMasked : Prop :=
  ∀ (x : RegIdx) (nn : Byte) (s : State), decode (wordXNN 0xC x nn) = .ok (.rnd x nn) ∧
    Completes (.rnd x nn) s [.reg x, .oracle] fun t =>
      (∀ b, t.v[x].getLsbD b = ((Config.rand s.draws).getLsbD b && nn.getLsbD b)) ∧
      t.draws = s.draws + 1

/-! ## Display -/

/-- 00E0 turns every cell off, VF and everything else unchanged (R165). -/
def Obligations.ClearTurnsEveryCellOff : Prop :=
  ∀ s : State, decode 0x00E0 = .ok .cls ∧
    Completes .cls s [.display] fun t => ∀ (cx : Col) (cy : Row), t.disp[cx][cy] = false

/-- DXYN inverts exactly the cells under the set bits of the sprite, bit b of row r at column
(VX mod 64 + b) mod 64 and row (VY mod 32 + r) mod 32, the most significant bit leftmost; every other
cell, I, and every register but VF are unchanged, and no rows draw nothing (R166, R167, R168, R170).
The origin is taken from the old VF where X or Y is 0xF (R169, which the spec derives, C11); that the
sprite's bytes must be in memory is D5. -/
def Obligations.DrawInvertsTheWrappedSprite : Prop :=
  ∀ (x y : RegIdx) (n : Fin 16) (s : State), decode (wordXYN 0xD x y n.val) = .ok (.drw x y n) ∧
    (spriteInMemory s n → Completes (.drw x y n) s [.display, .reg vf] fun t =>
      (∀ r b : Nat, r < n.val → b < 8 →
        t.disp[spriteX s x b][spriteY s y r] =
          (s.disp[spriteX s x b][spriteY s y r] ^^ spriteBit s r b)) ∧
      ∀ (cx : Col) (cy : Row),
        (∀ r b : Nat, r < n.val → b < 8 → ¬(cx = spriteX s x b ∧ cy = spriteY s y r)) →
        t.disp[cx][cy] = s.disp[cx][cy])

/-- DXYN sets VF to 1 exactly when a set sprite bit meets a cell that was on, else to 0; the origin
uses the old VF when X or Y is 0xF, and no rows give VF = 0 (R166, R169, R170; R169 is derived). -/
def Obligations.DrawReportsCollision : Prop :=
  ∀ (x y : RegIdx) (n : Fin 16) (s : State), spriteInMemory s n →
    ∃ t, exec (.drw x y n) s = .next t ∧ t.fault = s.fault ∧
      (t.v[vf] = 1 ↔ ∃ r b : Nat, r < n.val ∧ b < 8 ∧ spriteBit s r b = true ∧
        s.disp[spriteX s x b][spriteY s y r] = true) ∧
      (t.v[vf] = 1 ∨ t.v[vf] = 0)

/-- Drawing the same sprite twice at the same coordinates gives the display back, whatever was on it;
where every cell under the sprite was off and the sprite has a set bit, the second draw reports a
collision and the first does not (R166, R169). X and Y are not VF, which the first draw writes. -/
def Obligations.DrawingTwiceRestoresTheDisplay : Prop :=
  ∀ (x y : RegIdx) (n : Fin 16) (s : State), spriteInMemory s n → x ≠ vf → y ≠ vf →
    ∃ t u, exec (.drw x y n) s = .next t ∧ exec (.drw x y n) t = .next u ∧ u.disp = s.disp ∧
      ((∀ r b : Nat, r < n.val → b < 8 → s.disp[spriteX s x b][spriteY s y r] = false) →
        (∃ r b : Nat, r < n.val ∧ b < 8 ∧ spriteBit s r b = true) →
        t.v[vf] = 0 ∧ u.v[vf] = 1)

/-- The display is off at reset, only 00E0 and DXYN write it in a cycle, and the port presents each
cell as 0x00000000 or 0xFFFFFFFF (R32). -/
def Obligations.OnlyDisplayFamilyWritesDisplay : Prop :=
  (∀ (cx : Col) (cy : Row), State.reset.disp[cx][cy] = false) ∧
  (∀ s t : State, step s = .next t → t.disp ≠ s.disp →
    decode s.wordAtPc = .ok .cls ∨ ∃ x y n, decode s.wordAtPc = .ok (.drw x y n)) ∧
  ∀ (d : Display) (cx : Col) (cy : Row) (k : Fin 2048), k.val = cy.val * 64 + cx.val →
    (displayWords d)[k] = if d[cx][cy] then 0xFFFFFFFF#32 else 0x00000000#32

/-! ## Keypad and timers -/

/-- EX9E and EXA1 skip the next word when the key V[X] names is pressed, and when it is not; with V[X]
above 0x0F they take KeyIndexRange (R180 to R182; that fault is D14). -/
def Obligations.SkipOnKey : Prop :=
  ∀ (x : RegIdx) (s : State),
    decode (wordXNN 0xE x 0x9E) = .ok (.skp x) ∧ decode (wordXNN 0xE x 0xA1) = .ok (.sknp x) ∧
    (∀ h : s.v[x].toNat < 16,
      (Completes (.skp x) s [.pc] fun t =>
        t.pc = if s.key[s.v[x].toNat] = true then s.pc + 2 else s.pc) ∧
      (Completes (.sknp x) s [.pc] fun t =>
        t.pc = if s.key[s.v[x].toNat] = true then s.pc else s.pc + 2)) ∧
    (0x0F < s.v[x].toNat →
      TakesFault (.skp x) s .keyIndexRange (wordXNN 0xE x 0x9E) s.v[x].toNat ∧
      TakesFault (.sknp x) s .keyIndexRange (wordXNN 0xE x 0xA1) s.v[x].toNat)

/-- FX07 copies the delay timer into V[X] and changes nothing else; it runs before its own cycle's
tick, so it reads the value the previous cycle left (R183). -/
def Obligations.ReadDelayTimer : Prop :=
  ∀ (x : RegIdx) (s : State), decode (wordXNN 0xF x 0x07) = .ok (.ldVxDT x) ∧
    (Completes (.ldVxDT x) s [.reg x] fun t => t.v[x] = s.dt) ∧
    (s.executes (.ldVxDT x) → ∃ t, step s = .next t ∧ t.v[x] = s.dt ∧ t.dt.toNat = s.dt.toNat - 1)

/-- FX15 and FX18 set the delay timer and the sound timer to V[X] and change nothing else; the tick
of the same cycle then ages the new value, with one `tone` where ST was set above 0 (R184, R185). -/
def Obligations.WriteTimers : Prop :=
  ∀ (x : RegIdx) (s : State),
    decode (wordXNN 0xF x 0x15) = .ok (.ldDTVx x) ∧ decode (wordXNN 0xF x 0x18) = .ok (.ldSTVx x) ∧
    (Completes (.ldDTVx x) s [.delay] fun t => t.dt = s.v[x]) ∧
    (Completes (.ldSTVx x) s [.sound] fun t => t.st = s.v[x]) ∧
    (s.executes (.ldDTVx x) → ∃ t, step s = .next t ∧ t.dt.toNat = s.v[x].toNat - 1) ∧
    (s.executes (.ldSTVx x) → ∃ t, step s = .next t ∧ t.st.toNat = s.v[x].toNat - 1 ∧
      t.events = s.events ++ (if s.v[x].toNat > 0 then [.tone] else []))

/-- FX0A writes the index of the highest pressed key into V[X]; while none is pressed it writes no
register and takes PC back to itself, and the waiting cycle completes, with the timers ageing and
`tone` emitted while ST is above 0 (R186; the ageing is derived there from R100 and R195, the form of
`tone` is D20). -/
def Obligations.WaitForHighestKey : Prop :=
  ∀ (x : RegIdx) (s : State), decode (wordXNN 0xF x 0x0A) = .ok (.ldVxK x) ∧
    (∀ k : KeyIdx, s.key[k] = true → (∀ j : KeyIdx, k < j → s.key[j] = false) →
      Completes (.ldVxK x) s [.reg x] fun t => t.v[x].toNat = k.val) ∧
    ((∀ k : KeyIdx, s.key[k] = false) →
      (Completes (.ldVxK x) s [.pc] fun t => t.pc = s.pc - 2) ∧
      (s.executes (.ldVxK x) → ∃ t, step s = .next t ∧ t.fault = none ∧ t.pc = s.pc ∧ t.v = s.v ∧
        t.dt.toNat = s.dt.toNat - 1 ∧ t.st.toNat = s.st.toNat - 1 ∧
        t.events = s.events ++ (if s.st.toNat > 0 then [.tone] else [])))

/-- The key flags are false at reset, no cycle writes them, and of the host's operations only `setKey`
and `initialize`, which resets them, do; EX9E, EXA1 and FX0A alone read them: in a cycle of any other
opcode the flags change nothing (R33). -/
def Obligations.OnlyHostWritesKeys : Prop :=
  (∀ k : KeyIdx, State.reset.key[k] = false) ∧
  (∀ s t : State, step s = .next t → t.key = s.key) ∧
  (∀ (s t : State) (key' : Vector Bool 16), step s = .next t →
    (∀ x : RegIdx, decode s.wordAtPc ≠ .ok (.skp x) ∧ decode s.wordAtPc ≠ .ok (.sknp x) ∧
      decode s.wordAtPc ≠ .ok (.ldVxK x)) →
    step { s with key := key' } = .next { t with key := key' }) ∧
  ∀ (c : HostCall) (s t : State) (r : Response), hostCall c s = .next (t, r) → t.key ≠ s.key →
    (∃ index pressed, c = .setKey index pressed) ∨ c = .init

/-- Nothing in the core depends on the sound timer or on the outputs emitted: two states that differ
in these alone step to states that differ in these alone (R29: "no instruction reads it; its only
observer is the tone output"; R196). -/
def Obligations.SoundTimerIsNotObservable : Prop :=
  ∀ (s t : State) (st' : Byte) (events' : List Event), step s = .next t →
    ∃ u, step { s with st := st', events := events' } = .next u ∧
      { u with st := t.st, events := t.events } = t

/-! ## Index register and memory -/

/-- ANNN sets I to NNN and changes nothing else (R200; the meaning itself is D12). -/
def Obligations.LoadIndexImmediate : Prop :=
  ∀ (nnn : Addr) (s : State), decode (wordNNN 0xA nnn) = .ok (.ldI nnn) ∧
    Completes (.ldI nnn) s [.index] fun t => t.i.toNat = nnn.toNat

/-- FX1E adds V[X] to I modulo 65536; FX29 sets I to V[X] × 5, the full byte; neither writes VF or
anything else (R201, R202). -/
def Obligations.IndexArithmetic : Prop :=
  ∀ (x : RegIdx) (s : State),
    decode (wordXNN 0xF x 0x1E) = .ok (.addI x) ∧ decode (wordXNN 0xF x 0x29) = .ok (.ldF x) ∧
    (Completes (.addI x) s [.index] fun t => t.i.toNat = (s.i.toNat + s.v[x].toNat) % 65536) ∧
    (Completes (.ldF x) s [.index] fun t => t.i.toNat = s.v[x].toNat * 5)

/-- FX33 stores the decimal digits of V[X] at I, I+1 and I+2, hundreds first, and every other byte of
memory, I and the registers are unchanged (R203; bounds D5). -/
def Obligations.BcdStoresThreeDigits : Prop :=
  ∀ (x : RegIdx) (s : State), decode (wordXNN 0xF x 0x33) = .ok (.ldB x) ∧
    (s.i.toNat + 2 < 4096 →
      Completes (.ldB x) s [.byte s.i.toNat, .byte (s.i.toNat + 1), .byte (s.i.toNat + 2)] fun t =>
        (t.mem.byte s.i.toNat).toNat = s.v[x].toNat / 100 ∧
        (t.mem.byte (s.i.toNat + 1)).toNat = s.v[x].toNat / 10 % 10 ∧
        (t.mem.byte (s.i.toNat + 2)).toNat = s.v[x].toNat % 10)

/-- FX55 stores V0 to V[X] at I to I + X, and every other byte of memory, I and the registers are
unchanged (R204; bounds D5). -/
def Obligations.StoreRegistersAtIndex : Prop :=
  ∀ (x : RegIdx) (s : State), decode (wordXNN 0xF x 0x55) = .ok (.stRegs x) ∧
    (s.i.toNat + x.val < 4096 →
      Completes (.stRegs x) s ((List.range (x.val + 1)).map fun k => .byte (s.i.toNat + k)) fun t =>
        ∀ r : RegIdx, r.val ≤ x.val → t.mem.byte (s.i.toNat + r.val) = s.v[r])

/-- FX65 loads V0 to V[X] from I to I + X; the registers above V[X], I and all of memory are unchanged
(R205; I unchanged is D13, bounds D5). -/
def Obligations.LoadRegistersFromIndex : Prop :=
  ∀ (x : RegIdx) (s : State), decode (wordXNN 0xF x 0x65) = .ok (.ldRegs x) ∧
    (s.i.toNat + x.val < 4096 →
      Completes (.ldRegs x) s ((List.finRange 16).map .reg) fun t =>
        ∀ r : RegIdx, t.v[r] = if r.val ≤ x.val then s.mem.byte (s.i.toNat + r.val) else s.v[r])

/-- FX33, FX55, FX65 and DXYN whose last address is 4096 or more take MemoryBounds with the first
address of the range that is, and store, load and draw nothing at all (R206, R166, R170; D3, D5). -/
def Obligations.BlockTransferOutsideMemoryFaults : Prop :=
  ∀ (x y : RegIdx) (n : Fin 16) (s : State),
    (4096 ≤ s.i.toNat + 2 →
      TakesFault (.ldB x) s .memoryBounds (wordXNN 0xF x 0x33) (max s.i.toNat 4096)) ∧
    (4096 ≤ s.i.toNat + x.val →
      TakesFault (.stRegs x) s .memoryBounds (wordXNN 0xF x 0x55) (max s.i.toNat 4096) ∧
      TakesFault (.ldRegs x) s .memoryBounds (wordXNN 0xF x 0x65) (max s.i.toNat 4096)) ∧
    (0 < n.val → 4096 < s.i.toNat + n.val →
      TakesFault (.drw x y n) s .memoryBounds (wordXYN 0xD x y n.val) (max s.i.toNat 4096))

/-- Storing registers and loading them again gives every register back: FX65 after FX55, whatever
happens to the registers in between (R204, R205; D13). -/
def Obligations.LoadAfterStoreRestoresRegisters : Prop :=
  ∀ (x : RegIdx) (s : State) (v' : Vector Byte 16), s.i.toNat + x.val < 4096 →
    ∃ t u, exec (.stRegs x) s = .next t ∧ exec (.ldRegs x) { t with v := v' } = .next u ∧
      ∀ r : RegIdx, u.v[r] = if r.val ≤ x.val then s.v[r] else v'[r]

/-- A read gives the last byte written to its address, and a write leaves every other address alone;
both are refused from 4096 on, with the address (R63, R64, R70; reads are D5). -/
def Obligations.ReadGivesLastWrite : Prop :=
  ∀ (m : Memory) (a : Nat) (b : Byte),
    (a < 4096 → ∃ m', memWrite m a b = .ok m' ∧ m'.font = m.font ∧
      ∀ a', memRead m' a' = if a' = a then .ok b else memRead m a') ∧
    (4096 ≤ a → memWrite m a b = .error a ∧ memRead m a = .error a)

/-- Equal memories are equal data: two memories in canonical form over one font that read alike at
every address of the 4096 are the same, and a write keeps the form. -/
def Obligations.CanonicalMemoryIsUnique : Prop :=
  (∀ m m' : Memory, m.wf = true → m'.wf = true → m.font = m'.font →
    (∀ a, a < 4096 → m.byte a = m'.byte a) → m = m') ∧
  ∀ (m m' : Memory) (a : Nat) (b : Byte), m.wf = true → memWrite m a b = .ok m' → m'.wf = true

/-- Self-modifying code: the bytes FX55 stores are what a later fetch at their address reads, with no
fence or delay, in any phase and wherever I points (R73, R258; D23). -/
def Obligations.FetchSeesStoredBytes : Prop :=
  ∀ (x : RegIdx) (s : State), s.i.toNat + x.val < 4096 →
    ∃ t, exec (.stRegs x) s = .next t ∧
      ∀ (k k' : RegIdx) (pc' : Word), k'.val = k.val + 1 → k'.val ≤ x.val →
        pc'.toNat = s.i.toNat + k.val →
        ∃ w, fetch { t with pc := pc' } = .ok w ∧ w.toNat = s.v[k].toNat * 256 + s.v[k'].toNat

/-- I is written by ANNN, FX1E and FX29 only, not by DXYN, FX33, FX55 or FX65, and memory by FX33 and
FX55 only, within the bytes they name (R26, R66; D12, D13). -/
def Obligations.OnlyTheListedInstructionsWriteIndexOrMemory : Prop :=
  ∀ s t : State, step s = .next t →
    (t.i ≠ s.i →
      (∃ nnn, decode s.wordAtPc = .ok (.ldI nnn)) ∨
      (∃ x, decode s.wordAtPc = .ok (.addI x) ∨ decode s.wordAtPc = .ok (.ldF x))) ∧
    ∀ a : Nat, t.mem.byte a ≠ s.mem.byte a →
      ∃ x : RegIdx, s.i.toNat ≤ a ∧ a < 4096 ∧
        ((decode s.wordAtPc = .ok (.ldB x) ∧ a ≤ s.i.toNat + 2) ∨
         (decode s.wordAtPc = .ok (.stRegs x) ∧ a ≤ s.i.toNat + x.val))

/-! ## Reset and the host's ports -/

/-- `initialize` succeeds in every phase, fault or not, and leaves the reset values: registers, I,
SP, stack, timers 0, PC 0x200, the font in memory[0..80) and 0 elsewhere, display off, no key
pressed, phase READY, no fault (R250; phase and fault are D2, D3). The parameter FONT and the model's
own fields, the outputs emitted and the draws counted, stay as they were (DESIGN CHOICE, log 9). -/
def Obligations.InitializeLeavesResetValues : Prop :=
  ∀ s : State, ∃ t, hostCall .init s = .next (t, .done) ∧
    (∀ x : RegIdx, t.v[x] = 0) ∧ t.i = 0 ∧ t.pc = 0x200 ∧ t.sp.val = 0 ∧
    (∀ k : Fin 16, t.stack[k] = 0) ∧ t.dt = 0 ∧ t.st = 0 ∧
    (∀ (a : Nat) (h : a < 80), t.mem.byte a = s.mem.font[a]) ∧ (∀ a, 80 ≤ a → t.mem.byte a = 0) ∧
    (∀ (cx : Col) (cy : Row), t.disp[cx][cy] = false) ∧ (∀ k : KeyIdx, t.key[k] = false) ∧
    t.phase = .ready ∧ t.fault = none ∧
    t.mem.font = s.mem.font ∧ t.events = s.events ∧ t.draws = s.draws

/-- Which host operation has a step in which phase, and that the others stop under their name; a
`runCycle` that the phase admits stops, halted, where a fault is recorded (R255, R112; D2, D3, D29).
Two clauses are the model's: the form of the stops with the phase named before a recorded fault
(DESIGN CHOICE, log 4 and log 14), and that a fault recorded in READY does not stop `loadProgram`, as
the table names phases only (DEDUCED, log 13). -/
def Obligations.HostOperationsFollowPhaseTable : Prop :=
  ∀ (c : HostCall) (s : State),
    let allowed : Prop := match c with
      | .init => True
      | .loadProgram _ => s.phase = .ready
      | .runCycle => s.phase = .ready ∨ s.phase = .running
      | .setKey _ _ | .getDisplay | .getKeys | .readFault => s.phase ≠ .uninit
    (¬ allowed → hostCall c s = .fault (.notAdmitted c.op s.phase)) ∧
    (allowed → (c = .runCycle → s.fault = none) → ∃ t r, hostCall c s = .next (t, r)) ∧
    (∀ r, allowed → c = .runCycle → s.fault = some r → hostCall c s = .fault (.halted r))

/-- `loadProgram` in READY writes byte k at 0x200 + k and changes no other byte and nothing else, the
parameter FONT included; one longer than 3584 bytes, or whose read fails, writes nothing, returns its
error and leaves LOAD_FAILED (R252, R253; D2, D28). That it does so also where a fault is recorded in
READY is the model's reading (DEDUCED, log 13). -/
def Obligations.LoadProgramWritesOrFails : Prop :=
  ∀ s : State, s.phase = .ready →
    (∀ bs : List Byte, bs.length ≤ 3584 →
      ∃ t, hostCall (.loadProgram (.bytes bs)) s = .next (t, .done) ∧
        (∀ (k : Nat) (h : k < bs.length), t.mem.byte (0x200 + k) = bs[k]) ∧
        (∀ a, a < 0x200 ∨ 0x200 + bs.length ≤ a → t.mem.byte a = s.mem.byte a) ∧
        t.mem.font = s.mem.font ∧ t = { s with mem := t.mem }) ∧
    (∀ bs : List Byte, 3584 < bs.length →
      hostCall (.loadProgram (.bytes bs)) s = .next ({ s with phase := .loadFailed }, .romTooLarge)) ∧
    hostCall (.loadProgram .readFailure) s = .next ({ s with phase := .loadFailed }, .ioError)

/-- After `initialize` and a `loadProgram` of a program of 2 to 3584 bytes, in any state whatever, the
core can run and its first fetch is the program's first word, at 0x200 (R250, R252, R254; log 11). -/
def Obligations.BootFetchesTheFirstWord : Prop :=
  ∀ (s : State) (hi lo : Byte) (rest : List Byte), rest.length ≤ 3582 →
    ∃ t, hostCalls [.init, .loadProgram (.bytes (hi :: lo :: rest))] s = .next t ∧
      t.runnable ∧ t.pc = 0x200 ∧ ∃ w, fetch t = .ok w ∧ w.toNat = hi.toNat * 256 + lo.toNat

/-- `setKey` sets the flag of an index below 16 and has no effect otherwise; `getDisplay`, `getKeys`
and the fault port change nothing and return the cells, row by row, the flags and the record (R240,
R241, R242, R35; the layout is D19). -/
def Obligations.KeyAndReadPorts : Prop :=
  ∀ s : State, s.phase ≠ .uninit →
    (∀ (index : Nat) (pressed : Bool),
      ∃ t, hostCall (.setKey index pressed) s = .next (t, .done) ∧ t = { s with key := t.key } ∧
        ∀ k : KeyIdx, t.key[k] = if k.val = index then pressed else s.key[k]) ∧
    (∃ words, hostCall .getDisplay s = .next (s, .display words) ∧
      ∀ (cx : Col) (cy : Row) (k : Fin 2048), k.val = cy.val * 64 + cx.val →
        words[k] = if s.disp[cx][cy] then 0xFFFFFFFF#32 else 0#32) ∧
    hostCall .getKeys s = .next (s, .keys s.key) ∧
    hostCall .readFault s = .next (s, .faultRecord s.fault)

/-- An ended run stays ended (R256; the ends are D27): after the success end, a word 1NNN at address
NNN, every cycle leaves such an end again and changes only the phase, the timers and the outputs;
after the failure end, a recorded fault, there is no step. -/
def Obligations.EndedRunsStayEnded : Prop :=
  ∀ s : State, s.phase = .ready ∨ s.phase = .running →
    (runEnd s = some .success → ∃ t, step s = .next t ∧ runEnd t = some .success ∧
      t = { s with phase := .running, dt := t.dt, st := t.st, events := t.events }) ∧
    (∀ r, runEnd s = some (.failure r) → step s = .fault (.halted r))
end

