-- ==== Sys2Proof/Laws/Decode.lean ====
section
/-! SUPPORT. What the decoder's fields read from the encoder's three formats (30_encoding.md R81),
said through the number a word is, and the byte order of a word (20_memory.md R61). -/

namespace Sys2Proof

/-- Appending in the high bits is multiplying and adding (R10). -/
theorem append_toNat {m n : Nat} (a : BitVec m) (b : BitVec n) :
    (a ++ b).toNat = a.toNat * 2 ^ n + b.toNat := by
  rw [BitVec.toNat_append, ← Nat.shiftLeft_add_eq_or_of_lt b.isLt, Nat.shiftLeft_eq]

@[simp] theorem nib_toNat (x : Fin 16) : (nib x).toNat = x.val := rfl

@[simp] theorem nib_toFin (x : Fin 16) : (nib x).toFin = x := rfl

@[simp] theorem nib_opN_toFin (n : Nibble) : nib n.toFin = n := rfl

theorem addrForm_toNat (f : Nibble) (nnn : Addr) :
    (addrForm f nnn).toNat = f.toNat * 4096 + nnn.toNat := append_toNat f nnn

theorem regByteForm_toNat (f : Nibble) (x : RegIdx) (nn : Byte) :
    (regByteForm f x nn).toNat = f.toNat * 4096 + x.val * 256 + nn.toNat := by
  have h := append_toNat (f ++ nib x) nn
  rw [append_toNat f (nib x), nib_toNat] at h
  have e : (regByteForm f x nn).toNat = (f ++ nib x ++ nn).toNat := rfl
  omega

theorem regRegForm_toNat (f : Nibble) (x y : RegIdx) (n : Nibble) :
    (regRegForm f x y n).toNat = f.toNat * 4096 + x.val * 256 + y.val * 16 + n.toNat := by
  have h := append_toNat (f ++ nib x ++ nib y) n
  rw [append_toNat (f ++ nib x) (nib y), append_toNat f (nib x), nib_toNat, nib_toNat] at h
  have e : (regRegForm f x y n).toNat = (f ++ nib x ++ nib y ++ n).toNat := rfl
  omega

theorem opFamily_toNat (op : Word) : (opFamily op).toNat = op.toNat / 4096 := by
  simp [opFamily, BitVec.extractLsb'_toNat, Nat.shiftRight_eq_div_pow]; omega

theorem opX_val (op : Word) : (opX op).val = op.toNat / 256 % 16 := by
  simp [opX, Nat.shiftRight_eq_div_pow]

theorem opY_val (op : Word) : (opY op).val = op.toNat / 16 % 16 := by
  simp [opY, Nat.shiftRight_eq_div_pow]

theorem opN_toNat (op : Word) : (opN op).toNat = op.toNat % 16 := by
  simp [opN, BitVec.extractLsb'_toNat]

theorem opNN_toNat (op : Word) : (opNN op).toNat = op.toNat % 256 := by
  simp [opNN, BitVec.extractLsb'_toNat]

theorem opNNN_toNat (op : Word) : (opNNN op).toNat = op.toNat % 4096 := by
  simp [opNNN, BitVec.extractLsb'_toNat]

/-- A field whose number is known is that number's bits. -/
theorem field_eq {n k : Nat} {x : BitVec n} (h : x.toNat = k) : x = BitVec.ofNat n k := by
  rw [← h, BitVec.ofNat_toNat, BitVec.setWidth_eq]

/-- A family that is none of 0x0 to 0xE is 0xF. -/
theorem opFamily_eq_15 (op : Word) (h : 14 < (opFamily op).toNat) : opFamily op = 0xF#4 :=
  BitVec.eq_of_toNat_eq (by have := (opFamily op).isLt; simp; omega)

/-! ## The fields of each format -/

@[simp] theorem opFamily_addrForm (f : Nibble) (nnn : Addr) : opFamily (addrForm f nnn) = f := by
  apply BitVec.eq_of_toNat_eq; rw [opFamily_toNat, addrForm_toNat]; omega

@[simp] theorem opNNN_addrForm (f : Nibble) (nnn : Addr) : opNNN (addrForm f nnn) = nnn := by
  apply BitVec.eq_of_toNat_eq; rw [opNNN_toNat, addrForm_toNat]; omega

@[simp] theorem opFamily_regByteForm (f : Nibble) (x : RegIdx) (nn : Byte) :
    opFamily (regByteForm f x nn) = f := by
  apply BitVec.eq_of_toNat_eq; rw [opFamily_toNat, regByteForm_toNat]; omega

@[simp] theorem opX_regByteForm (f : Nibble) (x : RegIdx) (nn : Byte) :
    opX (regByteForm f x nn) = x := by
  apply Fin.ext; rw [opX_val, regByteForm_toNat]; omega

@[simp] theorem opNN_regByteForm (f : Nibble) (x : RegIdx) (nn : Byte) :
    opNN (regByteForm f x nn) = nn := by
  apply BitVec.eq_of_toNat_eq; rw [opNN_toNat, regByteForm_toNat]; omega

@[simp] theorem opFamily_regRegForm (f : Nibble) (x y : RegIdx) (n : Nibble) :
    opFamily (regRegForm f x y n) = f := by
  apply BitVec.eq_of_toNat_eq; rw [opFamily_toNat, regRegForm_toNat]; omega

@[simp] theorem opX_regRegForm (f : Nibble) (x y : RegIdx) (n : Nibble) :
    opX (regRegForm f x y n) = x := by
  apply Fin.ext; rw [opX_val, regRegForm_toNat]; omega

@[simp] theorem opY_regRegForm (f : Nibble) (x y : RegIdx) (n : Nibble) :
    opY (regRegForm f x y n) = y := by
  apply Fin.ext; rw [opY_val, regRegForm_toNat]; omega

@[simp] theorem opN_regRegForm (f : Nibble) (x y : RegIdx) (n : Nibble) :
    opN (regRegForm f x y n) = n := by
  apply BitVec.eq_of_toNat_eq; rw [opN_toNat, regRegForm_toNat]; omega

/-! ## Words put together again from their fields -/

theorem addrForm_fields (op : Word) : addrForm (opFamily op) (opNNN op) = op := by
  apply BitVec.eq_of_toNat_eq
  rw [addrForm_toNat, opFamily_toNat, opNNN_toNat]; omega

theorem regByteForm_fields (op : Word) : regByteForm (opFamily op) (opX op) (opNN op) = op := by
  apply BitVec.eq_of_toNat_eq
  rw [regByteForm_toNat, opFamily_toNat, opX_val, opNN_toNat]; omega

theorem regRegForm_fields (op : Word) :
    regRegForm (opFamily op) (opX op) (opY op) (opN op) = op := by
  apply BitVec.eq_of_toNat_eq
  rw [regRegForm_toNat, opFamily_toNat, opX_val, opY_val, opN_toNat]; omega

/-! ## The words the statements write are the encoder's formats -/

theorem wordNNN_eq_addrForm (f : Nibble) (nnn : Addr) :
    Machine.wordNNN f.toNat nnn = addrForm f nnn := by
  apply BitVec.eq_of_toNat_eq
  rw [addrForm_toNat, Machine.wordNNN, BitVec.toNat_ofNat]; omega

theorem wordXNN_eq_regByteForm (f : Nibble) (x : RegIdx) (nn : Byte) :
    Machine.wordXNN f.toNat x nn = regByteForm f x nn := by
  apply BitVec.eq_of_toNat_eq
  rw [regByteForm_toNat, Machine.wordXNN, BitVec.toNat_ofNat]; omega

theorem wordXYN_eq_regRegForm (f : Nibble) (x y : RegIdx) (n : Nibble) :
    Machine.wordXYN f.toNat x y n.toNat = regRegForm f x y n := by
  apply BitVec.eq_of_toNat_eq
  rw [regRegForm_toNat, Machine.wordXYN, BitVec.toNat_ofNat]; omega

theorem wordNNN_call (nnn : Addr) : Machine.wordNNN 2 nnn = encode (.call nnn) :=
  wordNNN_eq_addrForm 2#4 nnn

theorem wordNNN_sys (nnn : Addr) : Machine.wordNNN 0 nnn = encode (.sys nnn) :=
  wordNNN_eq_addrForm 0#4 nnn

theorem wordXNN_skp (x : RegIdx) : Machine.wordXNN 0xE x 0x9E = encode (.skp x) :=
  wordXNN_eq_regByteForm 0xE#4 x 0x9E

theorem wordXNN_sknp (x : RegIdx) : Machine.wordXNN 0xE x 0xA1 = encode (.sknp x) :=
  wordXNN_eq_regByteForm 0xE#4 x 0xA1

theorem wordXNN_ldB (x : RegIdx) : Machine.wordXNN 0xF x 0x33 = encode (.ldB x) :=
  wordXNN_eq_regByteForm 0xF#4 x 0x33

theorem wordXNN_stRegs (x : RegIdx) : Machine.wordXNN 0xF x 0x55 = encode (.stRegs x) :=
  wordXNN_eq_regByteForm 0xF#4 x 0x55

theorem wordXNN_ldRegs (x : RegIdx) : Machine.wordXNN 0xF x 0x65 = encode (.ldRegs x) :=
  wordXNN_eq_regByteForm 0xF#4 x 0x65

theorem wordXYN_drw (x y : RegIdx) (n : Fin 16) :
    Machine.wordXYN 0xD x y n.val = encode (.drw x y n) :=
  wordXYN_eq_regRegForm 0xD#4 x y (nib n)

/-! ## The masks of the opcode map read the fields dispatch routes on (R84, R103 to R107) -/

theorem mask_four_digits (a b c d a' b' c' d' : Nibble) :
    ((a ++ b ++ c ++ d : Word) &&& (a' ++ b' ++ c' ++ d' : Word)) =
      ((a &&& a') ++ (b &&& b') ++ (c &&& c') ++ (d &&& d') : Word) := by
  rw [BitVec.and_append, BitVec.and_append, BitVec.and_append]

theorem and_ones (a : Nibble) : a &&& 0xF#4 = a := BitVec.and_allOnes (x := a)

/-- Mask 0xF000 keeps the family. -/
theorem mask_family (f n : Nibble) (x y : RegIdx) :
    regRegForm f x y n &&& 0xF000#16 = regRegForm f 0 0 0 := by
  have h := mask_four_digits f (nib x) (nib y) n 0xF#4 0#4 0#4 0#4
  rw [and_ones, BitVec.and_zero, BitVec.and_zero, BitVec.and_zero] at h
  exact h

/-- Mask 0xF00F keeps the family and N. -/
theorem mask_family_n (f n : Nibble) (x y : RegIdx) :
    regRegForm f x y n &&& 0xF00F#16 = regRegForm f 0 0 n := by
  have h := mask_four_digits f (nib x) (nib y) n 0xF#4 0#4 0#4 0xF#4
  rw [and_ones, and_ones, BitVec.and_zero, BitVec.and_zero] at h
  exact h

/-- Mask 0xF0FF keeps the family and NN. -/
theorem mask_family_nn (f n : Nibble) (x y : RegIdx) :
    regRegForm f x y n &&& 0xF0FF#16 = regRegForm f 0 y n := by
  have h := mask_four_digits f (nib x) (nib y) n 0xF#4 0#4 0xF#4 0xF#4
  rw [and_ones, and_ones, and_ones, BitVec.and_zero] at h
  exact h

/-! ## Byte order -/

theorem joinBytes_toNat (hi lo : Byte) : (joinBytes hi lo).toNat = hi.toNat * 256 + lo.toNat :=
  append_toNat hi lo

@[simp] theorem joinBytes_high_low (op : Word) : joinBytes (highByte op) (lowByte op) = op := by
  apply BitVec.eq_of_toNat_eq
  rw [joinBytes_toNat]
  simp [highByte, lowByte, BitVec.extractLsb'_toNat, Nat.shiftRight_eq_div_pow]
  omega

/-- The head of a byte string that holds a word decodes as the word does (R80). -/
theorem decodeBytes_of_word (op : Word) (rest : List Byte) :
    decodeBytes (highByte op :: lowByte op :: rest) = (decode op).map fun i => (i, rest) := by
  simp [decodeBytes]

end Sys2Proof
end

