-- ==== Sys2Proof/Laws/Memory.lean ====
section
/-! SUPPORT. The laws of memory: reading after writing, what a transfer answers, and that every
operation keeps the canonical form (20_memory.md R63, R64, R70; 45_memory_transfer.md R206). -/

namespace Sys2Proof
namespace Machine

/-! ## The list of cells -/

theorem lookup_cell (a' k : Nat) (w : Byte) (cs : List Host.Cell) :
    ((k, w) :: cs).lookup a' = if a' = k then some w else cs.lookup a' := by
  rw [List.lookup_cons]
  by_cases h : a' = k
  · simp [h]
  · rw [beq_false_of_ne h, if_neg h]

theorem lookup_insertCell (a a' : Nat) (b : Byte) (cs : List Host.Cell) :
    (insertCell a b cs).lookup a' = if a' = a then some b else cs.lookup a' := by
  induction cs with
  | nil => simp [insertCell, lookup_cell]
  | cons c cs ih =>
    obtain ⟨k, w⟩ := c
    unfold insertCell
    split
    · rw [lookup_cell]
    split
    · next h =>
      have hk : a = k := h
      subst hk
      rw [lookup_cell, lookup_cell]; split <;> rfl
    · next h1 h2 =>
      have hk : a ≠ k := h2
      rw [lookup_cell, ih, lookup_cell]
      by_cases e : a' = k
      · rw [if_pos e, if_neg (by omega), if_pos e]
      · rw [if_neg e, if_neg e]

theorem lookup_removeCell (a a' : Nat) (cs : List Host.Cell) :
    (removeCell a cs).lookup a' = if a' = a then none else cs.lookup a' := by
  induction cs with
  | nil => simp [removeCell]
  | cons c cs ih =>
    obtain ⟨k, w⟩ := c
    unfold removeCell at ih ⊢
    by_cases e : k = a
    · rw [List.filter_cons_of_neg (by simp [e]), ih, lookup_cell]
      split
      · rfl
      · rw [if_neg (by omega)]
    · rw [List.filter_cons_of_pos (by simp [e]), lookup_cell, ih, lookup_cell]
      by_cases h : a' = k
      · rw [if_pos h, if_pos h, if_neg (by omega)]
      · rw [if_neg h, if_neg h]

/-! ## One byte -/

@[simp] theorem put_font (m : Memory) (a : Nat) (b : Byte) : (m.put a b).font = m.font := by
  unfold Memory.put; split <;> rfl

@[simp] theorem put_unlisted (m : Memory) (a a' : Nat) (b : Byte) :
    (m.put a b).unlisted a' = m.unlisted a' := by simp [Memory.unlisted]

/-- "Each read returns the value of the most recent write to its address" (R70). -/
theorem byte_put (m : Memory) (a a' : Nat) (b : Byte) :
    (m.put a b).byte a' = if a' = a then b else m.byte a' := by
  unfold Memory.byte
  rw [put_unlisted]
  unfold Memory.put
  split
  · next h =>
    rw [lookup_removeCell]
    by_cases e : a' = a <;> simp [e, h]
  · rw [lookup_insertCell]
    by_cases e : a' = a <;> simp [e]

@[simp] theorem byte_put_self (m : Memory) (a : Nat) (b : Byte) : (m.put a b).byte a = b := by
  simp [byte_put]

theorem byte_put_other (m : Memory) (a a' : Nat) (b : Byte) (h : a' ≠ a) :
    (m.put a b).byte a' = m.byte a' := by simp [byte_put, h]

/-! ## Several bytes -/

@[simp] theorem putBytes_font (m : Memory) (a : Nat) (bs : List Byte) :
    (m.putBytes a bs).font = m.font := by
  induction bs generalizing m a with
  | nil => rfl
  | cons b bs ih => simp [Memory.putBytes, ih]

/-- An address below the store reads as before. -/
theorem byte_putBytes_below (m : Memory) (a a' : Nat) (bs : List Byte) (h : a' < a) :
    (m.putBytes a bs).byte a' = m.byte a' := by
  induction bs generalizing m a with
  | nil => rfl
  | cons b bs ih =>
    rw [Memory.putBytes, ih _ _ (by omega), byte_put_other _ _ _ _ (by omega)]

/-- An address above the store reads as before. -/
theorem byte_putBytes_above (m : Memory) (a a' : Nat) (bs : List Byte) (h : a + bs.length ≤ a') :
    (m.putBytes a bs).byte a' = m.byte a' := by
  induction bs generalizing m a with
  | nil => rfl
  | cons b bs ih =>
    simp only [List.length_cons] at h
    rw [Memory.putBytes, ih _ _ (by omega), byte_put_other _ _ _ _ (by omega)]

/-- The k-th byte stored is at the k-th address (R61). -/
theorem byte_putBytes_at (m : Memory) (a k : Nat) (bs : List Byte) (h : k < bs.length) :
    (m.putBytes a bs).byte (a + k) = bs[k] := by
  induction bs generalizing m a k with
  | nil => simp at h
  | cons b bs ih =>
    rw [Memory.putBytes]
    cases k with
    | zero => rw [byte_putBytes_below _ _ _ _ (by omega)]; simp
    | succ k =>
      have h' : k < bs.length := by simpa using h
      have e : a + (k + 1) = a + 1 + k := by omega
      rw [e, ih _ _ _ h']; simp

/-! ## The checked operations -/

theorem firstInvalid_none {base len : Nat} (h : len = 0 ∨ base + len ≤ 4096) :
    firstInvalid base len = none := by simp [firstInvalid, h]

theorem firstInvalid_some {base len : Nat} (h0 : 0 < len) (h : 4096 < base + len) :
    firstInvalid base len = some (max base 4096) := by
  rw [firstInvalid, if_neg (by simp [Config.memSize]; omega)]

/-- What the check says, both ways. -/
theorem firstInvalid_cases (base len : Nat) :
    (firstInvalid base len = none ∧ (len = 0 ∨ base + len ≤ 4096)) ∨
    (firstInvalid base len = some (max base 4096) ∧ 0 < len ∧ 4096 < base + len) := by
  by_cases h : len = 0 ∨ base + len ≤ 4096
  · exact .inl ⟨firstInvalid_none h, h⟩
  · exact .inr ⟨firstInvalid_some (by omega) (by omega), by omega, by omega⟩

/-- A transfer that reads answers its bytes, or the first address outside memory (R206). -/
theorem readRange_cases (m : Memory) (base len : Nat) :
    (readRange m base len = .ok ((List.range len).map fun k => m.byte (base + k)) ∧
      (len = 0 ∨ base + len ≤ 4096)) ∨
    (readRange m base len = .error (max base 4096) ∧ 0 < len ∧ 4096 < base + len) := by
  rcases firstInvalid_cases base len with ⟨e, h⟩ | ⟨e, h⟩
  · exact .inl ⟨by rw [readRange, e], h⟩
  · exact .inr ⟨by rw [readRange, e], h⟩

/-- A transfer that writes answers the memory with its bytes, or the first address outside (R206). -/
theorem writeRange_cases (m : Memory) (base : Nat) (bs : List Byte) :
    (writeRange m base bs = .ok (m.putBytes base bs) ∧ (bs.length = 0 ∨ base + bs.length ≤ 4096)) ∨
    (writeRange m base bs = .error (max base 4096) ∧ 0 < bs.length ∧ 4096 < base + bs.length) := by
  rcases firstInvalid_cases base bs.length with ⟨e, h⟩ | ⟨e, h⟩
  · exact .inl ⟨by rw [writeRange, e], h⟩
  · exact .inr ⟨by rw [writeRange, e], h⟩

theorem memRead_ok {m : Memory} {a : Nat} (h : a < 4096) : memRead m a = .ok (m.byte a) := by
  rw [memRead, if_neg (by simp [Config.memSize]; omega)]

theorem memRead_error {m : Memory} {a : Nat} (h : 4096 ≤ a) : memRead m a = .error a := by
  rw [memRead, if_pos (by simpa [Config.memSize] using h)]

theorem memWrite_ok {m : Memory} {a : Nat} {b : Byte} (h : a < 4096) :
    memWrite m a b = .ok (m.put a b) := by
  rw [memWrite, if_neg (by simp [Config.memSize]; omega)]

theorem memWrite_error {m : Memory} {a : Nat} {b : Byte} (h : 4096 ≤ a) :
    memWrite m a b = .error a := by
  rw [memWrite, if_pos (by simpa [Config.memSize] using h)]

/-! ## The canonical form -/

/-- What a cell of a canonical memory satisfies. -/
def goodCell (m : Memory) (c : Host.Cell) : Prop := c.1 < 4096 ∧ c.2 ≠ m.unlisted c.1

theorem risingCells_cons (c : Host.Cell) (cs : List Host.Cell) :
    risingCells (c :: cs) = true ↔ (∀ d ∈ cs, c.1 < d.1) ∧ risingCells cs = true := by
  simp [risingCells]

theorem wf_iff (m : Memory) :
    m.wf = true ↔ risingCells m.cells = true ∧ ∀ c ∈ m.cells, goodCell m c := by
  simp [Memory.wf, goodCell]

theorem mem_insertCell {a : Nat} {b : Byte} {cs : List Host.Cell} {c : Host.Cell}
    (h : c ∈ insertCell a b cs) : c = (a, b) ∨ c ∈ cs := by
  induction cs with
  | nil => simpa [insertCell] using h
  | cons d ds ih =>
    unfold insertCell at h
    split at h
    · simpa using h
    split at h
    · rcases List.mem_cons.1 h with e | m
      · exact .inl e
      · exact .inr (List.mem_cons_of_mem _ m)
    · rcases List.mem_cons.1 h with e | m
      · exact .inr (by simp [e])
      · rcases ih m with e | m
        · exact .inl e
        · exact .inr (List.mem_cons_of_mem _ m)

theorem rising_insertCell (a : Nat) (b : Byte) {cs : List Host.Cell}
    (h : risingCells cs = true) : risingCells (insertCell a b cs) = true := by
  induction cs with
  | nil => simp [insertCell, risingCells]
  | cons d ds ih =>
    obtain ⟨h1, h2⟩ := (risingCells_cons d ds).1 h
    unfold insertCell
    split
    · next lt =>
      refine (risingCells_cons _ _).2 ⟨fun e he => ?_, h⟩
      rcases List.mem_cons.1 he with rfl | m
      · exact lt
      · exact Nat.lt_trans lt (h1 e m)
    split
    · next eq => exact (risingCells_cons _ _).2 ⟨fun e he => by simpa [eq] using h1 e he, h2⟩
    · refine (risingCells_cons _ _).2 ⟨fun e he => ?_, ih h2⟩
      rcases mem_insertCell he with rfl | m
      · show d.1 < a; omega
      · exact h1 e m

theorem rising_removeCell (a : Nat) {cs : List Host.Cell} (h : risingCells cs = true) :
    risingCells (removeCell a cs) = true := by
  induction cs with
  | nil => rfl
  | cons d ds ih =>
    obtain ⟨h1, h2⟩ := (risingCells_cons d ds).1 h
    have step : ∀ e ∈ removeCell a ds, d.1 < e.1 := fun e he => h1 e (List.mem_of_mem_filter he)
    by_cases e : d.1 = a
    · simpa [removeCell, e] using ih h2
    · simpa [removeCell, e] using (risingCells_cons d _).2 ⟨step, ih h2⟩

/-- A store below 4096 keeps the canonical form. -/
theorem put_wf {m : Memory} {a : Nat} (b : Byte) (h : m.wf = true) (ha : a < 4096) :
    (m.put a b).wf = true := by
  obtain ⟨hr, hg⟩ := (wf_iff m).1 h
  refine (wf_iff _).2 ⟨?_, fun c hc => ?_⟩
  · unfold Memory.put; split
    · exact rising_removeCell a hr
    · exact rising_insertCell a b hr
  · unfold goodCell
    rw [put_unlisted]
    unfold Memory.put at hc
    split at hc
    · exact hg c (List.mem_of_mem_filter hc)
    · next ne =>
      rcases mem_insertCell hc with rfl | m'
      · exact ⟨ha, ne⟩
      · exact hg c m'

theorem putBytes_wf {m : Memory} {a : Nat} {bs : List Byte} (h : m.wf = true)
    (ha : bs.length = 0 ∨ a + bs.length ≤ 4096) : (m.putBytes a bs).wf = true := by
  induction bs generalizing m a with
  | nil => exact h
  | cons b bs ih =>
    simp only [List.length_cons] at ha
    exact ih (put_wf b h (by omega)) (by omega)

theorem memWrite_wf {m m' : Memory} {a : Nat} {b : Byte} (h : m.wf = true)
    (e : memWrite m a b = .ok m') : m'.wf = true := by
  by_cases ha : a < 4096
  · rw [memWrite_ok ha] at e; cases e; exact put_wf b h ha
  · rw [memWrite_error (by omega)] at e; cases e

theorem writeRange_wf {m m' : Memory} {a : Nat} {bs : List Byte} (h : m.wf = true)
    (e : writeRange m a bs = .ok m') : m'.wf = true := by
  rcases writeRange_cases m a bs with ⟨eq, hl⟩ | ⟨eq, _⟩
  · rw [eq] at e; cases e; exact putBytes_wf h hl
  · rw [eq] at e; cases e

/-- Below every listed address there is nothing. -/
theorem lookup_none {a : Nat} {cs : List Host.Cell} (h : ∀ d ∈ cs, a ≠ d.1) :
    cs.lookup a = none := by
  induction cs with
  | nil => rfl
  | cons c cs ih =>
    rw [lookup_cell a c.1 c.2 cs, if_neg (h c (by simp)),
      ih fun d hd => h d (List.mem_cons_of_mem _ hd)]

theorem mem_of_lookup {cs : List Host.Cell} {a : Nat} {b : Byte} (h : cs.lookup a = some b) :
    (a, b) ∈ cs := by
  induction cs with
  | nil => cases h
  | cons c cs ih =>
    rw [lookup_cell a c.1 c.2 cs] at h
    split at h
    · next e => cases h; subst e; simp
    · exact List.mem_cons_of_mem _ (ih h)

/-- Lists of rising addresses that answer every lookup alike are one list. -/
theorem rising_ext {cs ds : List Host.Cell} (hc : risingCells cs = true)
    (hd : risingCells ds = true) (same : ∀ a, cs.lookup a = ds.lookup a) : cs = ds := by
  induction cs generalizing ds with
  | nil =>
    cases ds with
    | nil => rfl
    | cons d ds => have := same d.1; rw [lookup_cell d.1 d.1 d.2 ds] at this; simp at this
  | cons c cs ih =>
    obtain ⟨c1, c2⟩ := (risingCells_cons c cs).1 hc
    cases ds with
    | nil => have := same c.1; rw [lookup_cell c.1 c.1 c.2 cs] at this; simp at this
    | cons d ds =>
      obtain ⟨d1, d2⟩ := (risingCells_cons d ds).1 hd
      have below : ∀ a, a < c.1 → (c :: cs).lookup a = none := fun a h => lookup_none fun e he => by
        rcases List.mem_cons.1 he with rfl | m
        · omega
        · have := c1 e m; omega
      have below' : ∀ a, a < d.1 → (d :: ds).lookup a = none := fun a h => lookup_none fun e he => by
        rcases List.mem_cons.1 he with rfl | m
        · omega
        · have := d1 e m; omega
      have hk : c.1 = d.1 := by
        rcases Nat.lt_trichotomy c.1 d.1 with h | h | h
        · have := same c.1
          rw [below' _ h, lookup_cell c.1 c.1 c.2 cs] at this; simp at this
        · exact h
        · have := same d.1
          rw [below _ h, lookup_cell d.1 d.1 d.2 ds] at this; simp at this
      have hv : c.2 = d.2 := by
        have := same c.1
        rw [lookup_cell c.1 c.1 c.2 cs, lookup_cell c.1 d.1 d.2 ds, if_pos rfl, if_pos hk] at this
        exact Option.some.inj this
      have rest : cs = ds := ih c2 d2 fun a => by
        have := same a
        rw [lookup_cell a c.1 c.2 cs, lookup_cell a d.1 d.2 ds] at this
        by_cases e : a = c.1
        · rw [lookup_none fun x hx => by have := c1 x hx; omega,
            lookup_none fun x hx => by have := d1 x hx; omega]
        · rwa [if_neg e, if_neg (by omega)] at this
      rw [rest, Prod.ext hk hv]

/-- A memory that lists nothing is canonical; the reset state's is one. -/
theorem emptyCells_wf (font : Config.Font) : (Memory.mk font []).wf = true := rfl

theorem reset_mem_wf : State.reset.mem.wf = true := rfl

end Machine
end Sys2Proof
end

