-- ==== Sys2Proof/Laws/State.lean ====
section
/-! SUPPORT. One lemma per field per update of the state, so that no later proof unfolds a record
update; and the frame of each update. -/

namespace Sys2Proof
namespace Machine

/-! ### `V[x] <- b` writes one register. -/

@[simp] theorem setReg_v (x : RegIdx) (b : Byte) (s : State) : (setReg x b s).v = s.v.set x b := rfl
@[simp] theorem setReg_i (x : RegIdx) (b : Byte) (s : State) : (setReg x b s).i = s.i := rfl
@[simp] theorem setReg_pc (x : RegIdx) (b : Byte) (s : State) : (setReg x b s).pc = s.pc := rfl
@[simp] theorem setReg_sp (x : RegIdx) (b : Byte) (s : State) : (setReg x b s).sp = s.sp := rfl
@[simp] theorem setReg_stack (x : RegIdx) (b : Byte) (s : State) : (setReg x b s).stack = s.stack := rfl
@[simp] theorem setReg_dt (x : RegIdx) (b : Byte) (s : State) : (setReg x b s).dt = s.dt := rfl
@[simp] theorem setReg_st (x : RegIdx) (b : Byte) (s : State) : (setReg x b s).st = s.st := rfl
@[simp] theorem setReg_mem (x : RegIdx) (b : Byte) (s : State) : (setReg x b s).mem = s.mem := rfl
@[simp] theorem setReg_disp (x : RegIdx) (b : Byte) (s : State) : (setReg x b s).disp = s.disp := rfl
@[simp] theorem setReg_key (x : RegIdx) (b : Byte) (s : State) : (setReg x b s).key = s.key := rfl
@[simp] theorem setReg_phase (x : RegIdx) (b : Byte) (s : State) : (setReg x b s).phase = s.phase := rfl
@[simp] theorem setReg_fault (x : RegIdx) (b : Byte) (s : State) : (setReg x b s).fault = s.fault := rfl
@[simp] theorem setReg_events (x : RegIdx) (b : Byte) (s : State) : (setReg x b s).events = s.events := rfl
@[simp] theorem setReg_draws (x : RegIdx) (b : Byte) (s : State) : (setReg x b s).draws = s.draws := rfl

/-! ### A result and then VF. -/

@[simp] theorem setRegThenFlag_v (x : RegIdx) (b f : Byte) (s : State) : (setRegThenFlag x b f s).v = (s.v.set x b).set vf f := rfl
@[simp] theorem setRegThenFlag_i (x : RegIdx) (b f : Byte) (s : State) : (setRegThenFlag x b f s).i = s.i := rfl
@[simp] theorem setRegThenFlag_pc (x : RegIdx) (b f : Byte) (s : State) : (setRegThenFlag x b f s).pc = s.pc := rfl
@[simp] theorem setRegThenFlag_sp (x : RegIdx) (b f : Byte) (s : State) : (setRegThenFlag x b f s).sp = s.sp := rfl
@[simp] theorem setRegThenFlag_stack (x : RegIdx) (b f : Byte) (s : State) : (setRegThenFlag x b f s).stack = s.stack := rfl
@[simp] theorem setRegThenFlag_dt (x : RegIdx) (b f : Byte) (s : State) : (setRegThenFlag x b f s).dt = s.dt := rfl
@[simp] theorem setRegThenFlag_st (x : RegIdx) (b f : Byte) (s : State) : (setRegThenFlag x b f s).st = s.st := rfl
@[simp] theorem setRegThenFlag_mem (x : RegIdx) (b f : Byte) (s : State) : (setRegThenFlag x b f s).mem = s.mem := rfl
@[simp] theorem setRegThenFlag_disp (x : RegIdx) (b f : Byte) (s : State) : (setRegThenFlag x b f s).disp = s.disp := rfl
@[simp] theorem setRegThenFlag_key (x : RegIdx) (b f : Byte) (s : State) : (setRegThenFlag x b f s).key = s.key := rfl
@[simp] theorem setRegThenFlag_phase (x : RegIdx) (b f : Byte) (s : State) : (setRegThenFlag x b f s).phase = s.phase := rfl
@[simp] theorem setRegThenFlag_fault (x : RegIdx) (b f : Byte) (s : State) : (setRegThenFlag x b f s).fault = s.fault := rfl
@[simp] theorem setRegThenFlag_events (x : RegIdx) (b f : Byte) (s : State) : (setRegThenFlag x b f s).events = s.events := rfl
@[simp] theorem setRegThenFlag_draws (x : RegIdx) (b f : Byte) (s : State) : (setRegThenFlag x b f s).draws = s.draws := rfl

/-! ### `PC <- target`. -/

@[simp] theorem setPc_v (w : Word) (s : State) : (setPc w s).v = s.v := rfl
@[simp] theorem setPc_i (w : Word) (s : State) : (setPc w s).i = s.i := rfl
@[simp] theorem setPc_pc (w : Word) (s : State) : (setPc w s).pc = w := rfl
@[simp] theorem setPc_sp (w : Word) (s : State) : (setPc w s).sp = s.sp := rfl
@[simp] theorem setPc_stack (w : Word) (s : State) : (setPc w s).stack = s.stack := rfl
@[simp] theorem setPc_dt (w : Word) (s : State) : (setPc w s).dt = s.dt := rfl
@[simp] theorem setPc_st (w : Word) (s : State) : (setPc w s).st = s.st := rfl
@[simp] theorem setPc_mem (w : Word) (s : State) : (setPc w s).mem = s.mem := rfl
@[simp] theorem setPc_disp (w : Word) (s : State) : (setPc w s).disp = s.disp := rfl
@[simp] theorem setPc_key (w : Word) (s : State) : (setPc w s).key = s.key := rfl
@[simp] theorem setPc_phase (w : Word) (s : State) : (setPc w s).phase = s.phase := rfl
@[simp] theorem setPc_fault (w : Word) (s : State) : (setPc w s).fault = s.fault := rfl
@[simp] theorem setPc_events (w : Word) (s : State) : (setPc w s).events = s.events := rfl
@[simp] theorem setPc_draws (w : Word) (s : State) : (setPc w s).draws = s.draws := rfl

/-! ### The fetch's advance. -/

@[simp] theorem advancePc_v (s : State) : (advancePc s).v = s.v := rfl
@[simp] theorem advancePc_i (s : State) : (advancePc s).i = s.i := rfl
@[simp] theorem advancePc_pc (s : State) : (advancePc s).pc = s.pc + 2 := rfl
@[simp] theorem advancePc_sp (s : State) : (advancePc s).sp = s.sp := rfl
@[simp] theorem advancePc_stack (s : State) : (advancePc s).stack = s.stack := rfl
@[simp] theorem advancePc_dt (s : State) : (advancePc s).dt = s.dt := rfl
@[simp] theorem advancePc_st (s : State) : (advancePc s).st = s.st := rfl
@[simp] theorem advancePc_mem (s : State) : (advancePc s).mem = s.mem := rfl
@[simp] theorem advancePc_disp (s : State) : (advancePc s).disp = s.disp := rfl
@[simp] theorem advancePc_key (s : State) : (advancePc s).key = s.key := rfl
@[simp] theorem advancePc_phase (s : State) : (advancePc s).phase = s.phase := rfl
@[simp] theorem advancePc_fault (s : State) : (advancePc s).fault = s.fault := rfl
@[simp] theorem advancePc_events (s : State) : (advancePc s).events = s.events := rfl
@[simp] theorem advancePc_draws (s : State) : (advancePc s).draws = s.draws := rfl

/-! ### A skip. -/

@[simp] theorem skipIf_v (c : Bool) (s : State) : (skipIf c s).v = s.v := by unfold skipIf; split <;> rfl
@[simp] theorem skipIf_i (c : Bool) (s : State) : (skipIf c s).i = s.i := by unfold skipIf; split <;> rfl
@[simp] theorem skipIf_pc (c : Bool) (s : State) : (skipIf c s).pc = if c then s.pc + 2 else s.pc := by unfold skipIf; split <;> rfl
@[simp] theorem skipIf_sp (c : Bool) (s : State) : (skipIf c s).sp = s.sp := by unfold skipIf; split <;> rfl
@[simp] theorem skipIf_stack (c : Bool) (s : State) : (skipIf c s).stack = s.stack := by unfold skipIf; split <;> rfl
@[simp] theorem skipIf_dt (c : Bool) (s : State) : (skipIf c s).dt = s.dt := by unfold skipIf; split <;> rfl
@[simp] theorem skipIf_st (c : Bool) (s : State) : (skipIf c s).st = s.st := by unfold skipIf; split <;> rfl
@[simp] theorem skipIf_mem (c : Bool) (s : State) : (skipIf c s).mem = s.mem := by unfold skipIf; split <;> rfl
@[simp] theorem skipIf_disp (c : Bool) (s : State) : (skipIf c s).disp = s.disp := by unfold skipIf; split <;> rfl
@[simp] theorem skipIf_key (c : Bool) (s : State) : (skipIf c s).key = s.key := by unfold skipIf; split <;> rfl
@[simp] theorem skipIf_phase (c : Bool) (s : State) : (skipIf c s).phase = s.phase := by unfold skipIf; split <;> rfl
@[simp] theorem skipIf_fault (c : Bool) (s : State) : (skipIf c s).fault = s.fault := by unfold skipIf; split <;> rfl
@[simp] theorem skipIf_events (c : Bool) (s : State) : (skipIf c s).events = s.events := by unfold skipIf; split <;> rfl
@[simp] theorem skipIf_draws (c : Bool) (s : State) : (skipIf c s).draws = s.draws := by unfold skipIf; split <;> rfl

/-! ### `I <- w`. -/

@[simp] theorem setI_v (w : Word) (s : State) : (setI w s).v = s.v := rfl
@[simp] theorem setI_i (w : Word) (s : State) : (setI w s).i = w := rfl
@[simp] theorem setI_pc (w : Word) (s : State) : (setI w s).pc = s.pc := rfl
@[simp] theorem setI_sp (w : Word) (s : State) : (setI w s).sp = s.sp := rfl
@[simp] theorem setI_stack (w : Word) (s : State) : (setI w s).stack = s.stack := rfl
@[simp] theorem setI_dt (w : Word) (s : State) : (setI w s).dt = s.dt := rfl
@[simp] theorem setI_st (w : Word) (s : State) : (setI w s).st = s.st := rfl
@[simp] theorem setI_mem (w : Word) (s : State) : (setI w s).mem = s.mem := rfl
@[simp] theorem setI_disp (w : Word) (s : State) : (setI w s).disp = s.disp := rfl
@[simp] theorem setI_key (w : Word) (s : State) : (setI w s).key = s.key := rfl
@[simp] theorem setI_phase (w : Word) (s : State) : (setI w s).phase = s.phase := rfl
@[simp] theorem setI_fault (w : Word) (s : State) : (setI w s).fault = s.fault := rfl
@[simp] theorem setI_events (w : Word) (s : State) : (setI w s).events = s.events := rfl
@[simp] theorem setI_draws (w : Word) (s : State) : (setI w s).draws = s.draws := rfl

/-! ### An output. -/

@[simp] theorem emit_v (e : Event) (s : State) : (emit e s).v = s.v := rfl
@[simp] theorem emit_i (e : Event) (s : State) : (emit e s).i = s.i := rfl
@[simp] theorem emit_pc (e : Event) (s : State) : (emit e s).pc = s.pc := rfl
@[simp] theorem emit_sp (e : Event) (s : State) : (emit e s).sp = s.sp := rfl
@[simp] theorem emit_stack (e : Event) (s : State) : (emit e s).stack = s.stack := rfl
@[simp] theorem emit_dt (e : Event) (s : State) : (emit e s).dt = s.dt := rfl
@[simp] theorem emit_st (e : Event) (s : State) : (emit e s).st = s.st := rfl
@[simp] theorem emit_mem (e : Event) (s : State) : (emit e s).mem = s.mem := rfl
@[simp] theorem emit_disp (e : Event) (s : State) : (emit e s).disp = s.disp := rfl
@[simp] theorem emit_key (e : Event) (s : State) : (emit e s).key = s.key := rfl
@[simp] theorem emit_phase (e : Event) (s : State) : (emit e s).phase = s.phase := rfl
@[simp] theorem emit_fault (e : Event) (s : State) : (emit e s).fault = s.fault := rfl
@[simp] theorem emit_events (e : Event) (s : State) : (emit e s).events = s.events ++ [e] := rfl
@[simp] theorem emit_draws (e : Event) (s : State) : (emit e s).draws = s.draws := rfl

/-! ### The diagnostic of an unknown opcode. -/

@[simp] theorem unknownOpcode_v (op : Word) (s : State) : (unknownOpcode op s).v = s.v := rfl
@[simp] theorem unknownOpcode_i (op : Word) (s : State) : (unknownOpcode op s).i = s.i := rfl
@[simp] theorem unknownOpcode_pc (op : Word) (s : State) : (unknownOpcode op s).pc = s.pc := rfl
@[simp] theorem unknownOpcode_sp (op : Word) (s : State) : (unknownOpcode op s).sp = s.sp := rfl
@[simp] theorem unknownOpcode_stack (op : Word) (s : State) : (unknownOpcode op s).stack = s.stack := rfl
@[simp] theorem unknownOpcode_dt (op : Word) (s : State) : (unknownOpcode op s).dt = s.dt := rfl
@[simp] theorem unknownOpcode_st (op : Word) (s : State) : (unknownOpcode op s).st = s.st := rfl
@[simp] theorem unknownOpcode_mem (op : Word) (s : State) : (unknownOpcode op s).mem = s.mem := rfl
@[simp] theorem unknownOpcode_disp (op : Word) (s : State) : (unknownOpcode op s).disp = s.disp := rfl
@[simp] theorem unknownOpcode_key (op : Word) (s : State) : (unknownOpcode op s).key = s.key := rfl
@[simp] theorem unknownOpcode_phase (op : Word) (s : State) : (unknownOpcode op s).phase = s.phase := rfl
@[simp] theorem unknownOpcode_fault (op : Word) (s : State) : (unknownOpcode op s).fault = s.fault := rfl
@[simp] theorem unknownOpcode_events (op : Word) (s : State) : (unknownOpcode op s).events = s.events ++ [.unknownOpcode op (s.pc - 2)] := rfl
@[simp] theorem unknownOpcode_draws (op : Word) (s : State) : (unknownOpcode op s).draws = s.draws := rfl

/-! ### A draw. -/

@[simp] theorem drawRand_v (s : State) : ((drawRand s).2).v = s.v := rfl
@[simp] theorem drawRand_i (s : State) : ((drawRand s).2).i = s.i := rfl
@[simp] theorem drawRand_pc (s : State) : ((drawRand s).2).pc = s.pc := rfl
@[simp] theorem drawRand_sp (s : State) : ((drawRand s).2).sp = s.sp := rfl
@[simp] theorem drawRand_stack (s : State) : ((drawRand s).2).stack = s.stack := rfl
@[simp] theorem drawRand_dt (s : State) : ((drawRand s).2).dt = s.dt := rfl
@[simp] theorem drawRand_st (s : State) : ((drawRand s).2).st = s.st := rfl
@[simp] theorem drawRand_mem (s : State) : ((drawRand s).2).mem = s.mem := rfl
@[simp] theorem drawRand_disp (s : State) : ((drawRand s).2).disp = s.disp := rfl
@[simp] theorem drawRand_key (s : State) : ((drawRand s).2).key = s.key := rfl
@[simp] theorem drawRand_phase (s : State) : ((drawRand s).2).phase = s.phase := rfl
@[simp] theorem drawRand_fault (s : State) : ((drawRand s).2).fault = s.fault := rfl
@[simp] theorem drawRand_events (s : State) : ((drawRand s).2).events = s.events := rfl
@[simp] theorem drawRand_draws (s : State) : ((drawRand s).2).draws = s.draws + 1 := rfl

/-! ### Fault entry. -/

@[simp] theorem takeFault_v (k : FaultKind) (w op : Word) (a : Nat) (s : State) : (takeFault k w op a s).v = s.v := rfl
@[simp] theorem takeFault_i (k : FaultKind) (w op : Word) (a : Nat) (s : State) : (takeFault k w op a s).i = s.i := rfl
@[simp] theorem takeFault_pc (k : FaultKind) (w op : Word) (a : Nat) (s : State) : (takeFault k w op a s).pc = w := rfl
@[simp] theorem takeFault_sp (k : FaultKind) (w op : Word) (a : Nat) (s : State) : (takeFault k w op a s).sp = s.sp := rfl
@[simp] theorem takeFault_stack (k : FaultKind) (w op : Word) (a : Nat) (s : State) : (takeFault k w op a s).stack = s.stack := rfl
@[simp] theorem takeFault_dt (k : FaultKind) (w op : Word) (a : Nat) (s : State) : (takeFault k w op a s).dt = s.dt := rfl
@[simp] theorem takeFault_st (k : FaultKind) (w op : Word) (a : Nat) (s : State) : (takeFault k w op a s).st = s.st := rfl
@[simp] theorem takeFault_mem (k : FaultKind) (w op : Word) (a : Nat) (s : State) : (takeFault k w op a s).mem = s.mem := rfl
@[simp] theorem takeFault_disp (k : FaultKind) (w op : Word) (a : Nat) (s : State) : (takeFault k w op a s).disp = s.disp := rfl
@[simp] theorem takeFault_key (k : FaultKind) (w op : Word) (a : Nat) (s : State) : (takeFault k w op a s).key = s.key := rfl
@[simp] theorem takeFault_phase (k : FaultKind) (w op : Word) (a : Nat) (s : State) : (takeFault k w op a s).phase = s.phase := rfl
@[simp] theorem takeFault_fault (k : FaultKind) (w op : Word) (a : Nat) (s : State) : (takeFault k w op a s).fault = some { kind := k, pc := w, opcode := op, addr := a } := rfl
@[simp] theorem takeFault_events (k : FaultKind) (w op : Word) (a : Nat) (s : State) : (takeFault k w op a s).events = s.events := rfl
@[simp] theorem takeFault_draws (k : FaultKind) (w op : Word) (a : Nat) (s : State) : (takeFault k w op a s).draws = s.draws := rfl

/-! ### The tick. -/

@[simp] theorem timerTick_v (s : State) : (timerTick s).v = s.v := by unfold timerTick; split <;> rfl
@[simp] theorem timerTick_i (s : State) : (timerTick s).i = s.i := by unfold timerTick; split <;> rfl
@[simp] theorem timerTick_pc (s : State) : (timerTick s).pc = s.pc := by unfold timerTick; split <;> rfl
@[simp] theorem timerTick_sp (s : State) : (timerTick s).sp = s.sp := by unfold timerTick; split <;> rfl
@[simp] theorem timerTick_stack (s : State) : (timerTick s).stack = s.stack := by unfold timerTick; split <;> rfl
@[simp] theorem timerTick_dt (s : State) : (timerTick s).dt = countDown s.dt := by unfold timerTick; split <;> rfl
@[simp] theorem timerTick_st (s : State) : (timerTick s).st = countDown s.st := by unfold timerTick; split <;> rfl
@[simp] theorem timerTick_mem (s : State) : (timerTick s).mem = s.mem := by unfold timerTick; split <;> rfl
@[simp] theorem timerTick_disp (s : State) : (timerTick s).disp = s.disp := by unfold timerTick; split <;> rfl
@[simp] theorem timerTick_key (s : State) : (timerTick s).key = s.key := by unfold timerTick; split <;> rfl
@[simp] theorem timerTick_phase (s : State) : (timerTick s).phase = s.phase := by unfold timerTick; split <;> rfl
@[simp] theorem timerTick_fault (s : State) : (timerTick s).fault = s.fault := by unfold timerTick; split <;> rfl
@[simp] theorem timerTick_events (s : State) : (timerTick s).events = if s.st = 0#8 then s.events else s.events ++ [.tone] := by unfold timerTick; split <;> rfl
@[simp] theorem timerTick_draws (s : State) : (timerTick s).draws = s.draws := by unfold timerTick; split <;> rfl

/-! ### Reading a register after a write -/

theorem getReg_set (v : Vector Byte 16) (x y : RegIdx) (b : Byte) :
    (v.set x b)[y] = if x = y then b else v[y] := by
  simp [Vector.getElem_set, Fin.ext_iff]

theorem setReg_v_self (x : RegIdx) (b : Byte) (s : State) : (setReg x b s).v[x] = b := by simp

/-- The flag is the last write: VF holds it, with X = 0xF too (R23). -/
theorem setRegThenFlag_vf (x : RegIdx) (b f : Byte) (s : State) :
    (setRegThenFlag x b f s).v[vf] = f := by simp

/-- The result is what V[X] holds, unless V[X] is VF (R140). -/
theorem setRegThenFlag_result (x : RegIdx) (b f : Byte) (s : State) (h : x ≠ vf) :
    (setRegThenFlag x b f s).v[x] = b := by
  rw [setRegThenFlag_v, getReg_set, if_neg h.symm, getReg_set, if_pos rfl]

theorem setReg_v_other (x y : RegIdx) (b : Byte) (s : State) (h : x ≠ y) :
    (setReg x b s).v[y] = s.v[y] := by rw [setReg_v, getReg_set, if_neg h]

/-! ### What the tick counts -/

theorem countDown_toNat (t : Byte) : (countDown t).toNat = t.toNat - 1 := by
  unfold countDown; split
  · next h => simp [h]
  · next h =>
    have : t.toNat ≠ 0 := fun e => h (BitVec.eq_of_toNat_eq (by simpa using e))
    rw [BitVec.toNat_sub_of_le] <;> simp [BitVec.le_def]; omega

/-! ### Frames -/

theorem Frame.refl (ps : List Part) (s : State) : Frame ps s s := by
  constructor <;> intros <;> rfl

/-- A frame may name more parts. -/
theorem Frame.mono {ps qs : List Part} {s t : State} (h : Frame ps s t) (sub : ps ⊆ qs) :
    Frame qs s t where
  reg x hx := h.reg x fun m => hx (sub m)
  index hx := h.index fun m => hx (sub m)
  pc hx := h.pc fun m => hx (sub m)
  sp hx := h.sp fun m => hx (sub m)
  slot k hx := h.slot k fun m => hx (sub m)
  delay hx := h.delay fun m => hx (sub m)
  sound hx := h.sound fun m => hx (sub m)
  byte a hx := h.byte a fun m => hx (sub m)
  display hx := h.display fun m => hx (sub m)
  outputs hx := h.outputs fun m => hx (sub m)
  oracle hx := h.oracle fun m => hx (sub m)
  key := h.key
  phase := h.phase
  fault := h.fault
  font := h.font

/-- Two effects in a row change what either changes. -/
theorem Frame.trans {ps qs : List Part} {s t u : State} (h : Frame ps s t) (k : Frame qs t u) :
    Frame (ps ++ qs) s u := by
  have l : ∀ {p : Part}, p ∉ ps ++ qs → p ∉ ps := fun hp m => hp (List.mem_append_left _ m)
  have r : ∀ {p : Part}, p ∉ ps ++ qs → p ∉ qs := fun hp m => hp (List.mem_append_right _ m)
  exact
    { reg := fun x hx => (k.reg x (r hx)).trans (h.reg x (l hx))
      index := fun hx => (k.index (r hx)).trans (h.index (l hx))
      pc := fun hx => (k.pc (r hx)).trans (h.pc (l hx))
      sp := fun hx => (k.sp (r hx)).trans (h.sp (l hx))
      slot := fun x hx => (k.slot x (r hx)).trans (h.slot x (l hx))
      delay := fun hx => (k.delay (r hx)).trans (h.delay (l hx))
      sound := fun hx => (k.sound (r hx)).trans (h.sound (l hx))
      byte := fun x hx => (k.byte x (r hx)).trans (h.byte x (l hx))
      display := fun hx => (k.display (r hx)).trans (h.display (l hx))
      outputs := fun hx => (k.outputs (r hx)).trans (h.outputs (l hx))
      oracle := fun hx => (k.oracle (r hx)).trans (h.oracle (l hx))
      key := k.key.trans h.key
      phase := k.phase.trans h.phase
      fault := k.fault.trans h.fault
      font := k.font.trans h.font }

theorem setReg_frame (x : RegIdx) (b : Byte) (s : State) : Frame [.reg x] s (setReg x b s) where
  reg y h := setReg_v_other x y b s fun e => h (by simp [e])
  index _ := rfl
  pc _ := rfl
  sp _ := rfl
  slot _ _ := rfl
  delay _ := rfl
  sound _ := rfl
  byte _ _ := rfl
  display _ := rfl
  outputs _ := rfl
  oracle _ := rfl
  key := rfl
  phase := rfl
  fault := rfl
  font := rfl

theorem setRegThenFlag_frame (x : RegIdx) (b f : Byte) (s : State) :
    Frame [.reg x, .reg vf] s (setRegThenFlag x b f s) :=
  (setReg_frame x b s).trans (setReg_frame vf f (setReg x b s))

theorem setPc_frame (w : Word) (s : State) : Frame [.pc] s (setPc w s) := by
  constructor <;> simp_all

theorem skipIf_frame (c : Bool) (s : State) : Frame [.pc] s (skipIf c s) := by
  constructor <;> simp_all

theorem setI_frame (w : Word) (s : State) : Frame [.index] s (setI w s) := by
  constructor <;> simp_all

theorem unknownOpcode_frame (op : Word) (s : State) :
    Frame [.outputs] s (unknownOpcode op s) := by
  constructor <;> simp_all

end Machine
end Sys2Proof
end

