-- ==== Sys2Proof/Laws/Exec.lean ====
section
/-! SUPPORT. What the execute phase can do, said once: every instruction either takes one fault, or
answers a next state that differs from the given one only in the parts its rule names. -/

namespace Sys2Proof
namespace Machine

/-- The parts of the state the rule of an instruction lets it change when it takes no fault. -/
def partsOf (s : State) : Instr → List Part
  | .cls => [.display]
  | .ret => [.pc, .sp]
  | .sys _ => [.outputs]
  | .jp _ => [.pc]
  | .call _ => [.pc, .sp, .slot (Fin.ofNat 16 s.sp.val)]
  | .seByte _ _ => [.pc]
  | .sneByte _ _ => [.pc]
  | .seReg _ _ _ => [.pc]
  | .ldByte x _ => [.reg x]
  | .addByte x _ => [.reg x]
  | .ldReg x _ => [.reg x, .reg vf]
  | .orReg x _ => [.reg x, .reg vf]
  | .andReg x _ => [.reg x, .reg vf]
  | .xorReg x _ => [.reg x, .reg vf]
  | .addReg x _ => [.reg x, .reg vf]
  | .subReg x _ => [.reg x, .reg vf]
  | .shr x _ => [.reg x, .reg vf]
  | .subn x _ => [.reg x, .reg vf]
  | .shl x _ => [.reg x, .reg vf]
  | .sneReg _ _ _ => [.pc]
  | .ldI _ => [.index]
  | .jpV0 _ => [.pc]
  | .rnd x _ => [.reg x, .oracle]
  | .drw _ _ _ => [.display, .reg vf]
  | .skp _ => [.pc]
  | .sknp _ => [.pc]
  | .ldVxDT x => [.reg x]
  | .ldVxK x => [.reg x, .pc]
  | .ldDTVx _ => [.delay]
  | .ldSTVx _ => [.sound]
  | .addI _ => [.index]
  | .ldF _ => [.index]
  | .ldB _ => [.byte s.i.toNat, .byte (s.i.toNat + 1), .byte (s.i.toNat + 2)]
  | .stRegs x => (List.range (x.val + 1)).map fun k => .byte (s.i.toNat + k)
  | .ldRegs _ => (List.finRange 16).map .reg

/-- The two ways an execute phase ends: one sound fault record, or an effect within its parts. -/
inductive Ends (i : Instr) (s : State) : Prop where
  /-- Fault entry (R222). -/
  | faulted (k : FaultKind) (a : Nat)
      (sound : FaultRecord.sound { kind := k, pc := s.pc - 2, opcode := encode i, addr := a })
      (eq : exec i s = .next (takeFault k (s.pc - 2) (encode i) a s))
  /-- The instruction's own effect. -/
  | completed (t : State) (eq : exec i s = .next t) (frame : Frame (partsOf s i) s t)

/-! ## Operands as numbers -/

theorem zextAddr_toNat (nnn : Addr) : (zextAddr nnn).toNat = nnn.toNat := by
  have := nnn.isLt
  rw [zextAddr, BitVec.toNat_setWidth]; omega

theorem zextByte_toNat (b : Byte) : (zextByte b).toNat = b.toNat := by
  have := b.isLt
  rw [zextByte, BitVec.toNat_setWidth]; omega

/-- BNNN's sum cannot wrap (R129). -/
theorem indexedTarget_toNat (b : Byte) (nnn : Addr) :
    (indexedTarget b nnn).toNat = b.toNat + nnn.toNat := by
  have := nnn.isLt
  have := b.isLt
  rw [indexedTarget, BitVec.toNat_add, zextAddr_toNat, zextByte_toNat]; omega

/-- FX29's product cannot wrap (R202). -/
theorem glyphAddr_toNat (b : Byte) : (glyphAddr b).toNat = b.toNat * 5 := by
  have := b.isLt
  rw [glyphAddr, BitVec.toNat_mul, zextByte_toNat, BitVec.toNat_ofNat]
  simp [Config.glyphBytes]; omega

theorem keyByte_toNat (k : KeyIdx) : (keyByte k).toNat = k.val := by
  have := k.isLt
  rw [keyByte, BitVec.toNat_ofNat]; omega

theorem flagByte_toNat (f : Bool) : (flagByte f).toNat = if f then 1 else 0 := by
  cases f <;> rfl

/-- A byte is not zero when the number it is, is positive. -/
theorem toNat_pos_iff (b : Byte) : b.toNat > 0 ↔ b ≠ 0#8 := by
  constructor
  · rintro h rfl; simp at h
  · intro h; exact Nat.pos_of_ne_zero fun e => h (BitVec.eq_of_toNat_eq (by simpa using e))

/-! ## The parts of a store and of a register load -/

@[simp] theorem regsUpTo_length (v : Vector Byte 16) (x : RegIdx) :
    (regsUpTo v x).length = x.val + 1 := by
  simp [regsUpTo]

@[simp] theorem bcdDigits_length (b : Byte) : (bcdDigits b).length = 3 := rfl

/-- The k-th register FX55 stores is V[k] (R204). -/
theorem regsUpTo_get (v : Vector Byte 16) (x : RegIdx) (k : Nat) (h : k ≤ x.val) :
    (regsUpTo v x)[k]'(by simp; omega) = v[k] := by
  simp [regsUpTo]

/-- A store of several bytes changes the bytes it names and nothing else (R203, R204). -/
theorem putBytes_frame (s : State) (bs : List Byte) :
    Frame ((List.range bs.length).map fun k => .byte (s.i.toNat + k)) s
      { s with mem := s.mem.putBytes s.i.toNat bs } where
  reg _ _ := rfl
  index _ := rfl
  pc _ := rfl
  sp _ := rfl
  slot _ _ := rfl
  delay _ := rfl
  sound _ := rfl
  byte a ha := by
    rcases Nat.lt_or_ge a s.i.toNat with h | h
    · exact byte_putBytes_below _ _ _ _ h
    rcases Nat.lt_or_ge a (s.i.toNat + bs.length) with h' | h'
    · refine absurd (List.mem_map.2 ⟨a - s.i.toNat, List.mem_range.2 (by omega), ?_⟩) ha
      rw [Nat.add_sub_cancel' h]
    · exact byte_putBytes_above _ _ _ _ h'
  display _ := rfl
  outputs _ := rfl
  oracle _ := rfl
  key := rfl
  phase := rfl
  fault := rfl
  font := by simp

/-- The shared store: all of it within memory, or a MemoryBounds and none of it (R206). -/
theorem storeAtI_cases (i : Instr) (bs : List Byte) (s : State) (h0 : 0 < bs.length) :
    (storeAtI i bs s = .next { s with mem := s.mem.putBytes s.i.toNat bs } ∧
      s.i.toNat + bs.length ≤ 4096) ∨
    (storeAtI i bs s = .next (takeFault .memoryBounds (s.pc - 2) (encode i) (max s.i.toNat 4096) s) ∧
      4096 < s.i.toNat + bs.length) := by
  rcases writeRange_cases s.mem s.i.toNat bs with ⟨e, h⟩ | ⟨e, h⟩
  · exact .inl ⟨by rw [storeAtI, e], by omega⟩
  · exact .inr ⟨by rw [storeAtI, e]; rfl, h.2⟩

/-- FX33 stores the three digits, or takes MemoryBounds (R203). -/
theorem execLdB_cases (x : RegIdx) (s : State) :
    (exec (.ldB x) s = .next { s with mem := s.mem.putBytes s.i.toNat (bcdDigits s.v[x]) } ∧
      s.i.toNat + 2 < 4096) ∨
    (exec (.ldB x) s =
        .next (takeFault .memoryBounds (s.pc - 2) (encode (.ldB x)) (max s.i.toNat 4096) s) ∧
      4096 ≤ s.i.toNat + 2) := by
  rcases storeAtI_cases (.ldB x) (bcdDigits s.v[x]) s (by simp) with ⟨e, h⟩ | ⟨e, h⟩
  · exact .inl ⟨e, by simp only [bcdDigits_length] at h; omega⟩
  · exact .inr ⟨e, by simp only [bcdDigits_length] at h; omega⟩

/-- FX55 stores V0 to V[X], or takes MemoryBounds (R204). -/
theorem execStRegs_cases (x : RegIdx) (s : State) :
    (exec (.stRegs x) s = .next { s with mem := s.mem.putBytes s.i.toNat (regsUpTo s.v x) } ∧
      s.i.toNat + x.val < 4096) ∨
    (exec (.stRegs x) s =
        .next (takeFault .memoryBounds (s.pc - 2) (encode (.stRegs x)) (max s.i.toNat 4096) s) ∧
      4096 ≤ s.i.toNat + x.val) := by
  rcases storeAtI_cases (.stRegs x) (regsUpTo s.v x) s (by simp) with ⟨e, h⟩ | ⟨e, h⟩
  · exact .inl ⟨e, by simp only [regsUpTo_length] at h; omega⟩
  · exact .inr ⟨e, by simp only [regsUpTo_length] at h; omega⟩

/-- A MemoryBounds of a transfer from I is sound: I is 16 bits wide. -/
theorem bounds_sound (s : State) (pc op : Word) :
    FaultRecord.sound
      { kind := .memoryBounds, pc := pc, opcode := op, addr := max s.i.toNat 4096 } := by
  have := s.i.isLt
  simp only [FaultRecord.sound]; omega

/-- V0 to V[X] are the bytes read, the other registers stay (R205). -/
theorem loadedRegs_get (v : Vector Byte 16) (bs : List Byte) (r : RegIdx) :
    (loadedRegs v bs)[r] = bs.getD r.val v[r] := by
  simp [loadedRegs]

/-- The registers FX65 leaves, one by one (R205). -/
theorem loadedRegs_range (s : State) (x r : RegIdx) :
    (loadedRegs s.v ((List.range (x.val + 1)).map fun k => s.mem.byte (s.i.toNat + k)))[r] =
      if r.val ≤ x.val then s.mem.byte (s.i.toNat + r.val) else s.v[r] := by
  rw [loadedRegs_get]
  by_cases h : r.val ≤ x.val
  · rw [if_pos h, List.getD_eq_getElem _ _ (by simp; omega)]; simp
  · rw [if_neg h, List.getD_eq_default _ _ (by simp; omega)]

/-- The byte FX55 leaves at its r-th address (R204). -/
theorem byte_putRegs (m : Memory) (a : Nat) (v : Vector Byte 16) (x r : RegIdx)
    (h : r.val ≤ x.val) : (m.putBytes a (regsUpTo v x)).byte (a + r.val) = v[r] := by
  rw [byte_putBytes_at _ _ _ _ (by simp; omega), regsUpTo_get _ _ _ h]; rfl

/-! ## The families -/

theorem execRet_cases (s : State) :
    (exec .ret s = .next (takeFault .stackUnderflow (s.pc - 2) (encode .ret) 0 s) ∧ s.sp.val = 0) ∨
    (∃ h : 0 < s.sp.val, exec .ret s = .next { s with
        pc := s.stack[s.sp.val - 1]
        sp := ⟨s.sp.val - 1, by omega⟩ }) := by
  by_cases h : s.sp.val = 0
  · exact .inl ⟨by simp only [exec, execRet, dif_pos h]; rfl, h⟩
  · exact .inr ⟨by omega, by simp only [exec, execRet, dif_neg h]; rfl⟩

theorem execCall_cases (nnn : Addr) (s : State) :
    (exec (.call nnn) s = .next (takeFault .stackOverflow (s.pc - 2) (encode (.call nnn)) 0 s) ∧
      s.sp.val = 16) ∨
    (∃ h : s.sp.val < 16, exec (.call nnn) s = .next { s with
        pc := zextAddr nnn
        stack := s.stack.set s.sp.val s.pc
        sp := ⟨s.sp.val + 1, by omega⟩ }) := by
  by_cases h : s.sp.val < 16
  · exact .inr ⟨h, by simp only [exec, execCall, dif_pos h]; rfl⟩
  · exact .inl ⟨by simp only [exec, execCall, dif_neg h]; rfl, by omega⟩

/-- A draw has its sprite in memory, or takes MemoryBounds (R166, R170). -/
theorem execDrw_cases (x y : RegIdx) (n : Fin 16) (s : State) :
    (spriteInMemory s n ∧ ∃ c : Canvas,
      c = drawRows (s.v[x].toNat % 64) (s.v[y].toNat % 32) 0
        ((List.range n.val).map fun k => s.mem.byte (s.i.toNat + k)) (s.disp, false) ∧
      exec (.drw x y n) s = .next (setReg vf (collisionFlag c.2) { s with disp := c.1 })) ∨
    (0 < n.val ∧ 4096 < s.i.toNat + n.val ∧
      exec (.drw x y n) s =
        .next (takeFault .memoryBounds (s.pc - 2) (encode (.drw x y n)) (max s.i.toNat 4096) s)) := by
  rcases readRange_cases s.mem s.i.toNat n.val with ⟨e, h⟩ | ⟨e, h⟩
  · exact .inl ⟨h, _, rfl, by simp only [exec, execDrw, e]⟩
  · exact .inr ⟨h.1, h.2, by simp only [exec, execDrw, e]; rfl⟩

theorem execLdRegs_cases (x : RegIdx) (s : State) :
    (s.i.toNat + x.val < 4096 ∧ exec (.ldRegs x) s = .next { s with
        v := loadedRegs s.v ((List.range (x.val + 1)).map fun k => s.mem.byte (s.i.toNat + k)) }) ∨
    (4096 ≤ s.i.toNat + x.val ∧
      exec (.ldRegs x) s =
        .next (takeFault .memoryBounds (s.pc - 2) (encode (.ldRegs x)) (max s.i.toNat 4096) s)) := by
  rcases readRange_cases s.mem s.i.toNat (regCount x) with ⟨e, h⟩ | ⟨e, h⟩
  · exact .inl ⟨by simp only [regCount] at h; omega, by simp only [exec, execLdRegs, e]; rfl⟩
  · exact .inr ⟨by simp only [regCount] at h; omega, by simp only [exec, execLdRegs, e]; rfl⟩

/-- A key index within 0x0 to 0xF names its key; one above names none (R180). -/
theorem keyOf_cases (b : Byte) :
    (∃ h : b.toNat < 16, keyOf b = some ⟨b.toNat, h⟩) ∨ (15 < b.toNat ∧ keyOf b = none) := by
  by_cases h : b.toNat < 16
  · exact .inl ⟨h, dif_pos h⟩
  · exact .inr ⟨by omega, dif_neg h⟩

theorem execSkp_cases (x : RegIdx) (s : State) :
    (∃ h : s.v[x].toNat < 16, exec (.skp x) s = .next (skipIf s.key[s.v[x].toNat] s)) ∨
    (15 < s.v[x].toNat ∧ exec (.skp x) s =
      .next (takeFault .keyIndexRange (s.pc - 2) (encode (.skp x)) s.v[x].toNat s)) := by
  rcases keyOf_cases s.v[x] with ⟨h, e⟩ | ⟨h, e⟩
  · exact .inl ⟨h, by simp only [exec, execSkp, e]; rfl⟩
  · exact .inr ⟨h, by simp only [exec, execSkp, e]; rfl⟩

theorem execSknp_cases (x : RegIdx) (s : State) :
    (∃ h : s.v[x].toNat < 16, exec (.sknp x) s = .next (skipIf (!s.key[s.v[x].toNat]) s)) ∨
    (15 < s.v[x].toNat ∧ exec (.sknp x) s =
      .next (takeFault .keyIndexRange (s.pc - 2) (encode (.sknp x)) s.v[x].toNat s)) := by
  rcases keyOf_cases s.v[x] with ⟨h, e⟩ | ⟨h, e⟩
  · exact .inl ⟨h, by simp only [exec, execSknp, e]; rfl⟩
  · exact .inr ⟨h, by simp only [exec, execSknp, e]; rfl⟩

theorem execLdVxK_cases (x : RegIdx) (s : State) :
    (∃ k, scanKeys s.key = some k ∧ exec (.ldVxK x) s = .next (setReg x (keyByte k) s)) ∨
    (scanKeys s.key = none ∧ exec (.ldVxK x) s = .next (setPc (s.pc - 2) s)) := by
  cases e : scanKeys s.key with
  | some k => exact .inl ⟨k, rfl, by simp only [exec, execLdVxK, e]⟩
  | none => exact .inr ⟨rfl, by simp only [exec, execLdVxK, e]⟩

theorem keyIndex_sound (b : Byte) (h : 15 < b.toNat) (pc op : Word) :
    FaultRecord.sound { kind := .keyIndexRange, pc := pc, opcode := op, addr := b.toNat } :=
  ⟨h, b.isLt⟩

/-! ## The key scan of FX0A -/

/-- A scan in ascending order keeps the last match (R186). -/
theorem scan_foldl (key : Vector Bool 16) (ks : List KeyIdx) (acc : Option KeyIdx) :
    ((∀ k ∈ ks, key[k] = false) ∧
      ks.foldl (fun found k => if key[k] then some k else found) acc = acc) ∨
    ∃ k ∈ ks, key[k] = true ∧
      ks.foldl (fun found k => if key[k] then some k else found) acc = some k := by
  induction ks generalizing acc with
  | nil => exact .inl ⟨by simp, rfl⟩
  | cons j ks ih =>
    rw [List.foldl_cons]
    rcases ih (if key[j] then some j else acc) with ⟨none', e⟩ | ⟨k, m, on, e⟩
    · rw [e]
      cases hj : key[j] with
      | true => exact .inr ⟨j, by simp, hj, by simp⟩
      | false =>
        refine .inl ⟨fun k m => ?_, by simp⟩
        rcases List.mem_cons.1 m with rfl | m
        · exact hj
        · exact none' k m
    · exact .inr ⟨k, List.mem_cons_of_mem _ m, on, e⟩

/-- With no key pressed the scan finds none. -/
theorem scanKeys_none {key : Vector Bool 16} (h : ∀ k : KeyIdx, key[k] = false) :
    scanKeys key = none := by
  rcases scan_foldl key (List.finRange 16) none with ⟨_, e⟩ | ⟨k, _, on, _⟩
  · exact e
  · rw [h k] at on; cases on

/-- The scan finds the highest pressed key. -/
theorem scanKeys_highest {key : Vector Bool 16} {k : KeyIdx} (on : key[k] = true)
    (above : ∀ j : KeyIdx, k < j → key[j] = false) : scanKeys key = some k := by
  have split : List.finRange 16 =
      (List.finRange 16).filter (fun j => decide (j ≤ k)) ++
        (List.finRange 16).filter fun j => decide (k < j) := by clear on above; revert k; decide
  have last : (List.finRange 16).filter (fun j => decide (j ≤ k)) =
      (List.finRange 16).filter (fun j => decide (j < k)) ++ [k] := by
    clear on above split; revert k; decide
  rw [scanKeys, split, last, List.foldl_append, List.foldl_append]
  simp only [List.foldl_cons, List.foldl_nil, on, if_true]
  rcases scan_foldl key ((List.finRange 16).filter fun j => decide (k < j)) (some k) with
    ⟨_, e⟩ | ⟨j, m, onj, _⟩
  · exact e
  · rw [above j (by simpa using m)] at onj; cases onj

/-! ## The canonical form and the ranges of PC and of the stack -/

/-- Every execute phase keeps memory in canonical form. -/
theorem exec_wf {i : Instr} {s t : State} (h : exec i s = .next t) (hw : s.mem.wf = true) :
    t.mem.wf = true := by
  cases i
  case ret => rcases execRet_cases s with ⟨e, _⟩ | ⟨_, e⟩ <;> (rw [e] at h; cases h; exact hw)
  case call n => rcases execCall_cases n s with ⟨e, _⟩ | ⟨_, e⟩ <;> (rw [e] at h; cases h; exact hw)
  case drw x y n =>
    rcases execDrw_cases x y n s with ⟨_, _, _, e⟩ | ⟨_, _, e⟩ <;> (rw [e] at h; cases h; exact hw)
  case skp x =>
    rcases execSkp_cases x s with ⟨_, e⟩ | ⟨_, e⟩ <;> (rw [e] at h; cases h; simpa using hw)
  case sknp x =>
    rcases execSknp_cases x s with ⟨_, e⟩ | ⟨_, e⟩ <;> (rw [e] at h; cases h; simpa using hw)
  case ldVxK x =>
    rcases execLdVxK_cases x s with ⟨_, _, e⟩ | ⟨_, e⟩ <;> (rw [e] at h; cases h; exact hw)
  case ldRegs x =>
    rcases execLdRegs_cases x s with ⟨_, e⟩ | ⟨_, e⟩ <;> (rw [e] at h; cases h; exact hw)
  case ldB x =>
    rcases execLdB_cases x s with ⟨e, hl⟩ | ⟨e, _⟩ <;> (rw [e] at h; cases h)
    · exact putBytes_wf hw (.inr (by simp only [bcdDigits_length]; omega))
    · exact hw
  case stRegs x =>
    rcases execStRegs_cases x s with ⟨e, hl⟩ | ⟨e, _⟩ <;> (rw [e] at h; cases h)
    · exact putBytes_wf hw (.inr (by simp only [regsUpTo_length]; omega))
    · exact hw
  all_goals (cases h; first | exact hw | simpa using hw)

/-- From an address a fetch has left, with a stack of such addresses, every execute phase leaves such
a stack, and PC at most 0x10FE, "the largest target any instruction computes" (R25). -/
theorem exec_bounds {i : Instr} {s t : State} (h : exec i s = .next t) (hp : s.pc.toNat ≤ 0x1000)
    (h2 : 2 ≤ s.pc.toNat) (hs : ∀ k : Fin 16, s.stack[k].toNat ≤ 0x1000) :
    (∀ k : Fin 16, t.stack[k].toNat ≤ 0x1000) ∧ t.pc.toNat ≤ 0x10FE := by
  have sub2 : (s.pc - 2).toNat ≤ 0x10FE := by rw [BitVec.toNat_sub]; simp; omega
  have pc : s.pc.toNat ≤ 0x10FE := by omega
  have skip : ∀ c, (skipIf c s).pc.toNat ≤ 0x10FE := by
    intro c
    have add2 : (s.pc + 2).toNat ≤ 0x10FE := by rw [BitVec.toNat_add]; simp; omega
    rw [skipIf_pc]; split <;> omega
  cases i
  case jp n => cases h; exact ⟨hs, by rw [setPc_pc, zextAddr_toNat]; omega⟩
  case jpV0 n => cases h; exact ⟨hs, by rw [setPc_pc, indexedTarget_toNat]; omega⟩
  case ldB x =>
    rcases execLdB_cases x s with ⟨e, _⟩ | ⟨e, _⟩ <;> (rw [e] at h; cases h)
    · exact ⟨hs, pc⟩
    · exact ⟨hs, sub2⟩
  case stRegs x =>
    rcases execStRegs_cases x s with ⟨e, _⟩ | ⟨e, _⟩ <;> (rw [e] at h; cases h)
    · exact ⟨hs, pc⟩
    · exact ⟨hs, sub2⟩
  case ret =>
    rcases execRet_cases s with ⟨e, _⟩ | ⟨_, e⟩ <;> (rw [e] at h; cases h)
    · exact ⟨hs, sub2⟩
    · exact ⟨hs, Nat.le_trans (hs ⟨s.sp.val - 1, by omega⟩) (by omega)⟩
  case call n =>
    rcases execCall_cases n s with ⟨e, _⟩ | ⟨hlt, e⟩ <;> (rw [e] at h; cases h)
    · exact ⟨hs, sub2⟩
    · refine ⟨fun k => ?_, by show (zextAddr n).toNat ≤ _; rw [zextAddr_toNat]; omega⟩
      show ((s.stack.set s.sp.val s.pc hlt)[k.val]).toNat ≤ _
      rw [Vector.getElem_set]; split
      · exact hp
      · exact hs k
  case drw x y n =>
    rcases execDrw_cases x y n s with ⟨_, _, _, e⟩ | ⟨_, _, e⟩ <;> (rw [e] at h; cases h)
    · exact ⟨hs, pc⟩
    · exact ⟨hs, sub2⟩
  case skp x =>
    rcases execSkp_cases x s with ⟨_, e⟩ | ⟨_, e⟩ <;> (rw [e] at h; cases h)
    · exact ⟨by simpa using hs, skip _⟩
    · exact ⟨hs, sub2⟩
  case sknp x =>
    rcases execSknp_cases x s with ⟨_, e⟩ | ⟨_, e⟩ <;> (rw [e] at h; cases h)
    · exact ⟨by simpa using hs, skip _⟩
    · exact ⟨hs, sub2⟩
  case ldVxK x =>
    rcases execLdVxK_cases x s with ⟨_, _, e⟩ | ⟨_, e⟩ <;> (rw [e] at h; cases h)
    · exact ⟨hs, pc⟩
    · exact ⟨hs, sub2⟩
  case ldRegs x =>
    rcases execLdRegs_cases x s with ⟨_, e⟩ | ⟨_, e⟩ <;> (rw [e] at h; cases h)
    · exact ⟨hs, pc⟩
    · exact ⟨hs, sub2⟩
  all_goals
    cases h
    exact ⟨by first | exact hs | simpa using hs, by first | exact skip _ | exact pc⟩

/-- Every execute phase ends in one of the two ways. -/
theorem exec_ends (i : Instr) (s : State) : Ends i s := by
  cases i with
  | cls => exact .completed _ rfl (by constructor <;> simp_all [partsOf])
  | ret =>
    rcases execRet_cases s with ⟨e, _⟩ | ⟨h, e⟩
    · exact .faulted .stackUnderflow 0 rfl e
    · exact .completed _ e (by constructor <;> simp_all [partsOf])
  | sys nnn => exact .completed _ rfl (unknownOpcode_frame _ s)
  | jp nnn => exact .completed _ rfl (setPc_frame _ s)
  | call nnn =>
    rcases execCall_cases nnn s with ⟨e, _⟩ | ⟨h, e⟩
    · exact .faulted .stackOverflow 0 rfl e
    · refine .completed _ e ?_
      have sl : ∀ k : Fin 16, k ≠ Fin.ofNat 16 s.sp.val →
          (s.stack.set s.sp.val s.pc h)[k] = s.stack[k] := by
        intro k hk
        have : s.sp.val ≠ k.val := fun e' => hk (Fin.ext (by simp [Fin.ofNat, ← e']; omega))
        simp [this]
      constructor <;> simp_all [partsOf]
  | seByte x nn => exact .completed _ rfl (skipIf_frame _ s)
  | sneByte x nn => exact .completed _ rfl (skipIf_frame _ s)
  | seReg x y n => exact .completed _ rfl (skipIf_frame _ s)
  | ldByte x nn => exact .completed _ rfl (setReg_frame _ _ s)
  | addByte x nn => exact .completed _ rfl (setReg_frame _ _ s)
  | ldReg x y => exact .completed _ rfl (setRegThenFlag_frame _ _ _ s)
  | orReg x y => exact .completed _ rfl (setRegThenFlag_frame _ _ _ s)
  | andReg x y => exact .completed _ rfl (setRegThenFlag_frame _ _ _ s)
  | xorReg x y => exact .completed _ rfl (setRegThenFlag_frame _ _ _ s)
  | addReg x y => exact .completed _ rfl (setRegThenFlag_frame _ _ _ s)
  | subReg x y => exact .completed _ rfl (setRegThenFlag_frame _ _ _ s)
  | shr x y => exact .completed _ rfl (setRegThenFlag_frame _ _ _ s)
  | subn x y => exact .completed _ rfl (setRegThenFlag_frame _ _ _ s)
  | shl x y => exact .completed _ rfl (setRegThenFlag_frame _ _ _ s)
  | sneReg x y n => exact .completed _ rfl (skipIf_frame _ s)
  | ldI nnn => exact .completed _ rfl (setI_frame _ s)
  | jpV0 nnn => exact .completed _ rfl (setPc_frame _ s)
  | rnd x nn =>
    refine .completed _ rfl ?_
    have d : Frame [.oracle] s (drawRand s).2 := by constructor <;> simp_all
    exact (d.trans (setReg_frame x _ _)).mono (by simp [partsOf])
  | drw x y n =>
    rcases execDrw_cases x y n s with ⟨_, c, _, e⟩ | ⟨_, _, e⟩
    · refine .completed _ e ?_
      have d : Frame [.display] s { s with disp := c.1 } := by constructor <;> simp_all
      exact d.trans (setReg_frame vf _ _)
    · exact .faulted _ _ (bounds_sound s _ _) e
  | skp x =>
    rcases execSkp_cases x s with ⟨_, e⟩ | ⟨h, e⟩
    · exact .completed _ e (skipIf_frame _ s)
    · exact .faulted _ _ (keyIndex_sound _ h _ _) e
  | sknp x =>
    rcases execSknp_cases x s with ⟨_, e⟩ | ⟨h, e⟩
    · exact .completed _ e (skipIf_frame _ s)
    · exact .faulted _ _ (keyIndex_sound _ h _ _) e
  | ldVxDT x => exact .completed _ rfl (setReg_frame _ _ s)
  | ldVxK x =>
    rcases execLdVxK_cases x s with ⟨k, _, e⟩ | ⟨_, e⟩
    · exact .completed _ e ((setReg_frame x _ s).mono (by simp [partsOf]))
    · exact .completed _ e ((setPc_frame _ s).mono (by simp [partsOf]))
  | ldDTVx x => exact .completed _ rfl (by constructor <;> simp_all [partsOf])
  | ldSTVx x => exact .completed _ rfl (by constructor <;> simp_all [partsOf])
  | addI x => exact .completed _ rfl (setI_frame _ s)
  | ldF x => exact .completed _ rfl (setI_frame _ s)
  | ldB x =>
    rcases execLdB_cases x s with ⟨e, _⟩ | ⟨e, _⟩
    · exact .completed _ e (putBytes_frame s (bcdDigits s.v[x]))
    · exact .faulted _ _ (bounds_sound s _ _) e
  | stRegs x =>
    rcases execStRegs_cases x s with ⟨e, _⟩ | ⟨e, _⟩
    · exact .completed _ e (by simpa [partsOf] using putBytes_frame s (regsUpTo s.v x))
    · exact .faulted _ _ (bounds_sound s _ _) e
  | ldRegs x =>
    rcases execLdRegs_cases x s with ⟨_, e⟩ | ⟨_, e⟩
    · exact .completed _ e (by constructor <;> simp_all [partsOf])
    · exact .faulted _ _ (bounds_sound s _ _) e

/-- No instruction stops: the execute phase always answers a next state. -/
theorem exec_answers_next (i : Instr) (s : State) : ∃ t, exec i s = .next t := by
  cases exec_ends i s with
  | faulted k a _ eq => exact ⟨_, eq⟩
  | completed t eq _ => exact ⟨t, eq⟩

end Machine
end Sys2Proof
end

