-- ==== Sys2Proof/Laws/Cycle.lean ====
section
/-! SUPPORT. What a cycle can do, said once: the fetch, and every way a step can end
(40_fetch_dispatch.md R100, R101, R109, R111). -/

namespace Sys2Proof
namespace Machine

/-! ## The fetch -/

theorem wordAtPc_eq_joinBytes (s : State) :
    s.wordAtPc = joinBytes (s.mem.byte s.pc.toNat) (s.mem.byte (s.pc.toNat + 1)) := by
  apply BitVec.eq_of_toNat_eq
  rw [joinBytes_toNat, State.wordAtPc, BitVec.toNat_ofNat]; omega

theorem wordAtPc_toNat (s : State) :
    s.wordAtPc.toNat =
      (s.mem.byte s.pc.toNat).toNat * 256 + (s.mem.byte (s.pc.toNat + 1)).toNat := by
  rw [wordAtPc_eq_joinBytes, joinBytes_toNat]

/-- A fetch succeeds at PC ≤ 0xFFE (R101). -/
theorem fetch_ok {s : State} (h : s.pc.toNat ≤ 0xFFE) : fetch s = .ok s.wordAtPc := by
  rw [fetch, memRead_ok (by omega), memRead_ok (by omega), wordAtPc_eq_joinBytes]

/-- A fetch fails elsewhere, with the first byte address outside memory (R101, R224). -/
theorem fetch_error {s : State} (h : 0xFFE < s.pc.toNat) :
    fetch s = .error (max s.pc.toNat 0x1000) := by
  rcases Nat.lt_or_ge s.pc.toNat 0x1000 with h' | h'
  · rw [fetch, memRead_ok (by omega), memRead_error (a := s.pc.toNat + 1) (by omega)]
    simp; omega
  · rw [fetch, memRead_error h']
    simp; omega

/-! ## The gate -/

theorem cycleGate_runnable {s : State} (h : s.runnable) : cycleGate s = none := by
  obtain ⟨hp | hp, hf⟩ := h <;> simp [cycleGate, hp, hf]

/-- Where the gate lets a cycle through, the state is runnable (R112). -/
theorem runnable_of_step {s t : State} (h : step s = .next t) : s.runnable := by
  unfold step at h
  cases hg : cycleGate s with
  | some f => rw [hg] at h; cases h
  | none =>
    unfold cycleGate at hg
    cases hp : s.phase <;> rw [hp] at hg <;> simp at hg
    · exact ⟨.inl hp, hg⟩
    · exact ⟨.inr hp, hg⟩

theorem step_of_runnable {s : State} (h : s.runnable) : step s = runCycle s := by
  rw [step, cycleGate_runnable h]

/-! ## Every way a step ends -/

theorem advancePc_instrPc (s : State) : (advancePc s).pc - 2 = s.pc := by
  simp

/-- The cycle's start state with PC moved on and back is the start state. -/
theorem takeFault_advancePc (k : FaultKind) (op : Word) (a : Nat) (s : State) :
    takeFault k ((advancePc s).pc - 2) op a (advancePc s) =
      { s with fault := some { kind := k, pc := s.pc, opcode := op, addr := a } } := by
  rw [advancePc_instrPc]; rfl

/-- The ways a step answers a next state. -/
inductive StepEnds (s t : State) : Prop where
  /-- The fetch faulted. -/
  | fetchFaulted (far : 0xFFE < s.pc.toNat)
      (eq : t = { s with fault := some ⟨.memoryBounds, s.pc, 0, max s.pc.toNat 0x1000⟩ })
  /-- The opcode has no handler. -/
  | unknown (near : s.pc.toNat ≤ 0xFFE) (e : Rejection) (dec : decode s.wordAtPc = .error e)
      (eq : t = timerTick { unknownOpcode s.wordAtPc (advancePc s) with phase := .running })
  /-- The instruction took a fault. -/
  | faulted (near : s.pc.toNat ≤ 0xFFE) (i : Instr) (dec : decode s.wordAtPc = .ok i)
      (k : FaultKind) (a : Nat)
      (sound : FaultRecord.sound { kind := k, pc := s.pc, opcode := encode i, addr := a })
      (eq : t = { s with fault := some { kind := k, pc := s.pc, opcode := encode i, addr := a } })
  /-- The instruction completed. -/
  | completed (near : s.pc.toNat ≤ 0xFFE) (i : Instr) (dec : decode s.wordAtPc = .ok i) (u : State)
      (run : exec i (advancePc s) = .next u)
      (frame : Frame (partsOf (advancePc s) i) (advancePc s) u)
      (eq : t = timerTick { u with phase := .running })

theorem runCycle_far {s : State} (h : 0xFFE < s.pc.toNat) :
    runCycle s =
      .next { s with fault := some ⟨.memoryBounds, s.pc, 0, max s.pc.toNat 0x1000⟩ } := by
  rw [runCycle, fetch_error h]; rfl

theorem runCycle_unknown {s : State} {e : Rejection} (hf : s.fault = none)
    (h : s.pc.toNat ≤ 0xFFE) (d : decode s.wordAtPc = .error e) :
    runCycle s =
      .next (timerTick { unknownOpcode s.wordAtPc (advancePc s) with phase := .running }) := by
  have f : (unknownOpcode s.wordAtPc (advancePc s)).fault = none := by simp [hf]
  simp only [runCycle, fetch_ok h, executeOpcode, d, finishCycle, f]
  rfl

theorem runCycle_completed {s u : State} {i : Instr} (h : s.pc.toNat ≤ 0xFFE)
    (d : decode s.wordAtPc = .ok i) (run : exec i (advancePc s) = .next u) (hf : u.fault = none) :
    runCycle s = .next (timerTick { u with phase := .running }) := by
  simp only [runCycle, fetch_ok h, executeOpcode, d, run, finishCycle, hf]
  rfl

/-- A step of an instruction whose execute phase records no fault. -/
theorem step_completed {s u : State} {i : Instr} (h : s.executes i)
    (run : exec i (advancePc s) = .next u) (hf : u.fault = s.fault) :
    step s = .next (timerTick { u with phase := .running }) := by
  rw [step_of_runnable h.1]
  exact runCycle_completed h.2.1 h.2.2 run (hf.trans h.1.2)

theorem runCycle_faulted {s u : State} {i : Instr} (h : s.pc.toNat ≤ 0xFFE)
    (d : decode s.wordAtPc = .ok i) (run : exec i (advancePc s) = .next u) (hf : u.fault ≠ none) :
    runCycle s = .next u := by
  simp only [runCycle, fetch_ok h, executeOpcode, d, run, finishCycle]
  rw [if_pos (Option.isSome_iff_ne_none.2 hf)]

/-- A runnable state has a step, and it ends in one of the four ways. -/
theorem step_ends {s : State} (hr : s.runnable) : ∃ t, step s = .next t ∧ StepEnds s t := by
  rw [step_of_runnable hr]
  rcases Nat.lt_or_ge 0xFFE s.pc.toNat with h | h
  · exact ⟨_, runCycle_far h, .fetchFaulted h rfl⟩
  cases d : decode s.wordAtPc with
  | error e => exact ⟨_, runCycle_unknown hr.2 h d, .unknown h e d rfl⟩
  | ok i =>
    cases exec_ends i (advancePc s) with
    | faulted k a sound eq =>
      refine ⟨_, runCycle_faulted h d eq (by simp), ?_⟩
      rw [advancePc_instrPc] at sound
      exact .faulted h i d k a sound (takeFault_advancePc k _ a s)
    | completed u eq frame =>
      have f : u.fault = none := by rw [frame.fault]; exact hr.2
      exact ⟨_, runCycle_completed h d eq f, .completed h i d u eq frame rfl⟩

/-- The inversion of a step: what every invariant and every rule about the whole machine cites. -/
theorem ends_of_step {s t : State} (h : step s = .next t) : StepEnds s t := by
  obtain ⟨u, e, w⟩ := step_ends (runnable_of_step h)
  rw [h] at e; cases e; exact w

/-- A step that leaves no fault is no fault's. -/
theorem completes_of_step {s t : State} (h : step s = .next t) (hf : t.fault = none) :
    (∃ e, decode s.wordAtPc = .error e ∧
      t = timerTick { unknownOpcode s.wordAtPc (advancePc s) with phase := .running }) ∨
    ∃ i u, decode s.wordAtPc = .ok i ∧ exec i (advancePc s) = .next u ∧
      Frame (partsOf (advancePc s) i) (advancePc s) u ∧
      t = timerTick { u with phase := .running } := by
  cases ends_of_step h with
  | fetchFaulted _ eq => rw [eq] at hf; cases hf
  | unknown _ e d eq => exact .inl ⟨e, d, eq⟩
  | faulted _ i d k a _ eq => rw [eq] at hf; cases hf
  | completed _ i d u run frame eq => exact .inr ⟨i, u, d, run, frame, eq⟩

end Machine
end Sys2Proof
end

