-- ==== Sys2Proof/Laws/Display.lean ====
section
/-! SUPPORT. What drawing does, in closed form: every cell the sprite covers is inverted, once, and
the collision flag says whether one of them was on (43_display.md R166 to R170). -/

namespace Sys2Proof
namespace Machine

/-! ## One cell -/

theorem toggleCell_cell (cx cx' : Col) (cy cy' : Row) (c : Canvas) :
    (toggleCell cx cy c).1[cx'][cy'] =
      (c.1[cx'][cy'] ^^ (decide (cx' = cx) && decide (cy' = cy))) := by
  by_cases hx : cx' = cx
  · subst hx
    by_cases hy : cy' = cy
    · subst hy; simp [toggleCell]
    · have : cy.val ≠ cy'.val := fun e => hy (Fin.ext e.symm)
      simp [toggleCell, this, hy]
  · have : cx.val ≠ cx'.val := fun e => hx (Fin.ext e.symm)
    simp [toggleCell, this, hx]

theorem toggleCell_hit (cx : Col) (cy : Row) (c : Canvas) :
    (toggleCell cx cy c).2 = (c.2 || c.1[cx][cy]) := rfl

/-! ## The cells of a sprite -/

/-- Some set bit of the row, among the bit indexes listed, lands on this column. -/
def bitsCover (x0 : Nat) (row : Byte) (bs : List Nat) (cx : Col) : Bool :=
  bs.any fun b => row.getLsbD (7 - b) && decide (cx = spriteCol x0 b)

/-- Some set bit of the rows, from row index r on, lands on this cell. -/
def rowsCover (x0 y0 : Nat) : Nat → List Byte → Col → Row → Bool
  | _, [], _, _ => false
  | r, row :: rest, cx, cy =>
    (decide (cy = spriteRow y0 r) && bitsCover x0 row (List.range 8) cx) ||
      rowsCover x0 y0 (r + 1) rest cx cy

/-- "8 ≤ 64 columns": the bits of a row land on distinct columns (R169). -/
theorem spriteCol_inj (x0 : Nat) {b b' : Nat} (h : b < 64) (h' : b' < 64)
    (e : spriteCol x0 b = spriteCol x0 b') : b = b' := by
  have := Fin.ext_iff.1 e
  simp only [spriteCol] at this; omega

/-- "N ≤ 15 ≤ 32 rows": the rows of a sprite land on distinct rows (R169). -/
theorem spriteRow_inj (y0 : Nat) {r r' : Nat} (h : r < r' + 32) (h' : r' < r + 32)
    (e : spriteRow y0 r = spriteRow y0 r') : r = r' := by
  have := Fin.ext_iff.1 e
  simp only [spriteRow] at this; omega

theorem bitsCover_iff (x0 : Nat) (row : Byte) (bs : List Nat) (cx : Col) :
    bitsCover x0 row bs cx = true ↔
      ∃ b ∈ bs, row.getLsbD (7 - b) = true ∧ cx = spriteCol x0 b := by
  simp [bitsCover]

theorem rowsCover_iff (x0 y0 r : Nat) (rows : List Byte) (cx : Col) (cy : Row) :
    rowsCover x0 y0 r rows cx cy = true ↔
      ∃ (k b : Nat) (h : k < rows.length), b < 8 ∧ rows[k].getLsbD (7 - b) = true ∧
        cx = spriteCol x0 b ∧ cy = spriteRow y0 (r + k) := by
  induction rows generalizing r with
  | nil => simp [rowsCover]
  | cons row rest ih =>
    rw [rowsCover, Bool.or_eq_true, Bool.and_eq_true, bitsCover_iff, ih]
    constructor
    · rintro (⟨hy, b, hb, hbit, hx⟩ | ⟨k, b, h, hb, hbit, hx, hy⟩)
      · exact ⟨0, b, by simp, by simpa using hb, by simpa using hbit, hx, by simpa using hy⟩
      · exact ⟨k + 1, b, by simpa using h, hb, by simpa using hbit, hx, by
          rw [hy]; congr 1; omega⟩
    · rintro ⟨k, b, h, hb, hbit, hx, hy⟩
      cases k with
      | zero => exact .inl ⟨by simpa using hy, b, by simpa using hb, by simpa using hbit, hx⟩
      | succ k =>
        refine .inr ⟨k, b, by simpa using h, hb, by simpa using hbit, hx, ?_⟩
        rw [hy]; congr 1; omega

/-! ## One row -/

theorem drawBit_cell (x0 y0 r : Nat) (row : Byte) (c : Canvas) (b : Nat) (cx : Col) (cy : Row) :
    (drawBit x0 y0 r row c b).1[cx][cy] =
      (c.1[cx][cy] ^^ (decide (cy = spriteRow y0 r) && bitsCover x0 row [b] cx)) := by
  unfold drawBit
  split
  · next h =>
    rw [toggleCell_cell]
    simp [bitsCover, h, Bool.and_comm]
  · next h => simp [bitsCover, h]

theorem drawBit_hit (x0 y0 r : Nat) (row : Byte) (c : Canvas) (b : Nat) :
    (drawBit x0 y0 r row c b).2 =
      (c.2 || (row.getLsbD (7 - b) && c.1[spriteCol x0 b][spriteRow y0 r])) := by
  unfold drawBit
  split
  · next h => rw [toggleCell_hit, h, Bool.true_and]
  · next h => simp [h]

/-- The bits listed, each once, invert the cells they cover. -/
theorem drawBits_cell (x0 y0 r : Nat) (row : Byte) (bs : List Nat) (c : Canvas)
    (nodup : bs.Nodup) (small : ∀ b ∈ bs, b < 8) (cx : Col) (cy : Row) :
    (bs.foldl (drawBit x0 y0 r row) c).1[cx][cy] =
      (c.1[cx][cy] ^^ (decide (cy = spriteRow y0 r) && bitsCover x0 row bs cx)) := by
  induction bs generalizing c with
  | nil => simp [bitsCover]
  | cons b bs ih =>
    obtain ⟨nb, nd⟩ := List.nodup_cons.1 nodup
    rw [List.foldl_cons, ih _ nd fun d hd => small d (List.mem_cons_of_mem _ hd), drawBit_cell]
    have excl : ¬(bitsCover x0 row [b] cx = true ∧ bitsCover x0 row bs cx = true) := by
      rintro ⟨h1, h2⟩
      obtain ⟨b1, m1, _, e1⟩ := (bitsCover_iff ..).1 h1
      obtain ⟨b2, m2, _, e2⟩ := (bitsCover_iff ..).1 h2
      have hb1 : b1 = b := by simpa using m1
      have s1 := small b (by simp)
      have s2 := small b2 (List.mem_cons_of_mem _ m2)
      have := spriteCol_inj x0 (b := b1) (b' := b2) (by omega) (by omega) (e1.symm.trans e2)
      exact nb (by rw [← hb1, this]; exact m2)
    have split : bitsCover x0 row (b :: bs) cx =
        (bitsCover x0 row [b] cx || bitsCover x0 row bs cx) := by simp [bitsCover]
    rw [split]
    cases decide (cy = spriteRow y0 r) <;> cases h1 : bitsCover x0 row [b] cx <;>
      cases h2 : bitsCover x0 row bs cx <;> simp_all

/-- They report a collision when one of those cells was on. -/
theorem drawBits_hit (x0 y0 r : Nat) (row : Byte) (bs : List Nat) (c : Canvas)
    (nodup : bs.Nodup) (small : ∀ b ∈ bs, b < 8) :
    (bs.foldl (drawBit x0 y0 r row) c).2 = true ↔
      c.2 = true ∨ ∃ cx, bitsCover x0 row bs cx = true ∧ c.1[cx][spriteRow y0 r] = true := by
  induction bs generalizing c with
  | nil => simp [bitsCover]
  | cons b bs ih =>
    obtain ⟨nb, nd⟩ := List.nodup_cons.1 nodup
    have sm : ∀ d ∈ bs, d < 8 := fun d hd => small d (List.mem_cons_of_mem _ hd)
    have s1 := small b (by simp)
    rw [List.foldl_cons, ih _ nd sm, drawBit_hit]
    have same : ∀ cx, bitsCover x0 row bs cx = true →
        (drawBit x0 y0 r row c b).1[cx][spriteRow y0 r] = c.1[cx][spriteRow y0 r] := by
      intro cx h2
      obtain ⟨b2, m2, _, e2⟩ := (bitsCover_iff ..).1 h2
      have n : bitsCover x0 row [b] cx = false := by
        rw [Bool.eq_false_iff]
        intro h1
        obtain ⟨b1, m1, _, e1⟩ := (bitsCover_iff ..).1 h1
        have hb1 : b1 = b := by simpa using m1
        have := sm b2 m2
        have := spriteCol_inj x0 (b := b1) (b' := b2) (by omega) (by omega) (e1.symm.trans e2)
        exact nb (by rw [← hb1, this]; exact m2)
      rw [drawBit_cell, n]; simp
    constructor
    · rintro (h | ⟨cx, h, on⟩)
      · rcases Bool.or_eq_true _ _ ▸ h with h | h
        · exact .inl h
        · obtain ⟨h1, h2⟩ := Bool.and_eq_true _ _ ▸ h
          exact .inr ⟨_, (bitsCover_iff ..).2 ⟨b, by simp, h1, rfl⟩, h2⟩
      · rw [same cx h] at on
        obtain ⟨d, m, hd⟩ := (bitsCover_iff ..).1 h
        exact .inr ⟨cx, (bitsCover_iff ..).2 ⟨d, List.mem_cons_of_mem _ m, hd⟩, on⟩
    · rintro (h | ⟨cx, h, on⟩)
      · exact .inl (by rw [h, Bool.true_or])
      · obtain ⟨d, m, hbit, hx⟩ := (bitsCover_iff ..).1 h
        rcases List.mem_cons.1 m with rfl | m
        · subst hx
          exact .inl (by rw [hbit, on, Bool.true_and, Bool.or_true])
        · have cov : bitsCover x0 row bs cx = true := (bitsCover_iff ..).2 ⟨d, m, hbit, hx⟩
          exact .inr ⟨cx, cov, by rw [same cx cov]; exact on⟩

theorem drawRow_cell (x0 y0 r : Nat) (row : Byte) (c : Canvas) (cx : Col) (cy : Row) :
    (drawRow x0 y0 r row c).1[cx][cy] =
      (c.1[cx][cy] ^^ (decide (cy = spriteRow y0 r) && bitsCover x0 row (List.range 8) cx)) :=
  drawBits_cell x0 y0 r row _ c List.nodup_range (fun _ h => List.mem_range.1 h) cx cy

theorem drawRow_hit (x0 y0 r : Nat) (row : Byte) (c : Canvas) :
    (drawRow x0 y0 r row c).2 = true ↔
      c.2 = true ∨
        ∃ cx, bitsCover x0 row (List.range 8) cx = true ∧ c.1[cx][spriteRow y0 r] = true :=
  drawBits_hit x0 y0 r row _ c List.nodup_range fun _ h => List.mem_range.1 h

/-! ## The whole sprite -/

/-- A later row covers no cell of this one. -/
theorem rowsCover_later (x0 y0 r : Nat) (rest : List Byte) (h : rest.length < 32) (cx : Col) :
    rowsCover x0 y0 (r + 1) rest cx (spriteRow y0 r) = false := by
  rw [Bool.eq_false_iff]
  intro hc
  obtain ⟨k, b, hk, _, _, _, e⟩ := (rowsCover_iff ..).1 hc
  have := spriteRow_inj y0 (r := r) (r' := r + 1 + k) (by omega) (by omega) e
  omega

/-- Drawing inverts exactly the cells the sprite covers. -/
theorem drawRows_cell (x0 y0 r : Nat) (rows : List Byte) (c : Canvas) (h : rows.length ≤ 32)
    (cx : Col) (cy : Row) :
    (drawRows x0 y0 r rows c).1[cx][cy] = (c.1[cx][cy] ^^ rowsCover x0 y0 r rows cx cy) := by
  induction rows generalizing r c with
  | nil => simp [drawRows, rowsCover]
  | cons row rest ih =>
    simp only [List.length_cons] at h
    rw [drawRows, ih _ _ (by omega), drawRow_cell, rowsCover]
    by_cases e : cy = spriteRow y0 r
    · subst e; rw [rowsCover_later _ _ _ _ (by omega)]; simp
    · simp [e]

/-- Drawing reports a collision when a covered cell was on. -/
theorem drawRows_hit (x0 y0 r : Nat) (rows : List Byte) (c : Canvas) (h : rows.length ≤ 32) :
    (drawRows x0 y0 r rows c).2 = true ↔
      c.2 = true ∨ ∃ cx cy, rowsCover x0 y0 r rows cx cy = true ∧ c.1[cx][cy] = true := by
  induction rows generalizing r c with
  | nil => simp [drawRows, rowsCover]
  | cons row rest ih =>
    simp only [List.length_cons] at h
    have hr : rest.length < 32 := by omega
    rw [drawRows, ih _ _ (by omega), drawRow_hit]
    have same : ∀ cx cy, rowsCover x0 y0 (r + 1) rest cx cy = true →
        (drawRow x0 y0 r row c).1[cx][cy] = c.1[cx][cy] := by
      intro cx cy hc
      have ne : cy ≠ spriteRow y0 r := by
        rintro rfl; rw [rowsCover_later _ _ _ _ hr] at hc; cases hc
      rw [drawRow_cell]; simp [ne]
    constructor
    · rintro ((hc | ⟨cx, hb, on⟩) | ⟨cx, cy, hc, on⟩)
      · exact .inl hc
      · exact .inr ⟨cx, _, by simp [rowsCover, hb], on⟩
      · rw [same cx cy hc] at on
        exact .inr ⟨cx, cy, by simp [rowsCover, hc], on⟩
    · rintro (hc | ⟨cx, cy, hc, on⟩)
      · exact .inl (.inl hc)
      · rw [rowsCover, Bool.or_eq_true] at hc
        rcases hc with hb | hc
        · rw [Bool.and_eq_true, decide_eq_true_eq] at hb
          obtain ⟨rfl, cov⟩ := hb
          exact .inl (.inr ⟨cx, cov, on⟩)
        · exact .inr ⟨cx, cy, hc, by rw [same cx cy hc]; exact on⟩

/-- The sprite rows a draw reads (R166). -/
def spriteRows (s : State) (n : Fin 16) : List Byte :=
  (List.range n.val).map fun k => s.mem.byte (s.i.toNat + k)

theorem spriteRows_length (s : State) (n : Fin 16) : (spriteRows s n).length ≤ 32 := by
  simp [spriteRows]; omega

/-- The cells a draw covers, in the terms of the statements. -/
theorem rowsCover_sprite (s : State) (x y : RegIdx) (n : Fin 16) (cx : Col) (cy : Row) :
    rowsCover (s.v[x].toNat % 64) (s.v[y].toNat % 32) 0 (spriteRows s n) cx cy = true ↔
      ∃ r b, r < n.val ∧ b < 8 ∧ spriteBit s r b = true ∧ cx = spriteX s x b ∧
        cy = spriteY s y r := by
  have row : ∀ r, spriteY s y r = spriteRow (s.v[y].toNat % 32) r := fun _ => rfl
  rw [rowsCover_iff]
  constructor
  · rintro ⟨k, b, h, hb, bit, h1, h2⟩
    exact ⟨k, b, by simpa [spriteRows] using h, hb, by simpa [spriteRows, spriteBit] using bit, h1,
      by rw [h2, row]; simp⟩
  · rintro ⟨k, b, h, hb, bit, h1, h2⟩
    exact ⟨k, b, by simpa [spriteRows] using h, hb, by simpa [spriteRows, spriteBit] using bit, h1,
      by rw [h2, row]; simp⟩

/-- Drawing the same rows again gives the display back. -/
theorem drawRows_twice (x0 y0 : Nat) (rows : List Byte) (d : Display) (h : rows.length ≤ 32)
    (b : Bool) :
    (drawRows x0 y0 0 rows ((drawRows x0 y0 0 rows (d, b)).1, b)).1 = d := by
  apply Vector.ext; intro cx hx
  apply Vector.ext; intro cy hy
  have := drawRows_cell x0 y0 0 rows ((drawRows x0 y0 0 rows (d, b)).1, b) h ⟨cx, hx⟩ ⟨cy, hy⟩
  rw [drawRows_cell x0 y0 0 rows (d, b) h] at this
  simpa using this

/-- A fresh display: every cell is off (R32). -/
@[simp] theorem allOff_cell (cx : Col) (cy : Row) : Display.allOff[cx][cy] = false := by
  simp [Display.allOff]

end Machine
end Sys2Proof
end

