-- ==== Sys2Proof/Laws/PerInstr.lean ====
section
/-! SUPPORT. One lemma per instruction: decoding the word its encoding gives, gives it back
(30_encoding.md R81, R84; 40_fetch_dispatch.md R103 to R108). -/

namespace Sys2Proof
namespace Laws
namespace EncodingRoundTrip

/-- The encoding of a well-formed instruction decodes to that instruction. -/
def Statement (i : Instr) : Prop := i.wellFormed = true → decode (encode i) = .ok i

/-! ## The formats, family by family -/

theorem sys_decodes (nnn : Addr) (h : sysAddrFree nnn = true) :
    decode (addrForm 0#4 nnn) = .ok (.sys nnn) := by
  simp only [sysAddrFree, Bool.and_eq_true, bne_iff_ne] at h
  have other : ∀ a : Addr, nnn ≠ a → addrForm 0#4 nnn ≠ addrForm 0#4 a := fun a ne e => ne (by
    have := congrArg opNNN e
    rwa [opNNN_addrForm, opNNN_addrForm] at this)
  have h1 : addrForm 0#4 nnn ≠ 0x00E0#16 := other 0x0E0 h.1
  have h2 : addrForm 0#4 nnn ≠ 0x00EE#16 := other 0x0EE h.2
  simp [decode, decodeFamily0, h1, h2]

theorem addr_decodes (nnn : Addr) :
    decode (addrForm 0x1#4 nnn) = .ok (.jp nnn) ∧
    decode (addrForm 0x2#4 nnn) = .ok (.call nnn) ∧
    decode (addrForm 0xA#4 nnn) = .ok (.ldI nnn) ∧
    decode (addrForm 0xB#4 nnn) = .ok (.jpV0 nnn) := by
  simp [decode]

theorem regByte_decodes (x : RegIdx) (nn : Byte) :
    decode (regByteForm 0x3#4 x nn) = .ok (.seByte x nn) ∧
    decode (regByteForm 0x4#4 x nn) = .ok (.sneByte x nn) ∧
    decode (regByteForm 0x6#4 x nn) = .ok (.ldByte x nn) ∧
    decode (regByteForm 0x7#4 x nn) = .ok (.addByte x nn) ∧
    decode (regByteForm 0xC#4 x nn) = .ok (.rnd x nn) := by
  simp [decode]

theorem register_decodes (x : RegIdx) :
    decode (regByteForm 0xE#4 x 0x9E) = .ok (.skp x) ∧
    decode (regByteForm 0xE#4 x 0xA1) = .ok (.sknp x) ∧
    decode (regByteForm 0xF#4 x 0x07) = .ok (.ldVxDT x) ∧
    decode (regByteForm 0xF#4 x 0x0A) = .ok (.ldVxK x) ∧
    decode (regByteForm 0xF#4 x 0x15) = .ok (.ldDTVx x) ∧
    decode (regByteForm 0xF#4 x 0x18) = .ok (.ldSTVx x) ∧
    decode (regByteForm 0xF#4 x 0x1E) = .ok (.addI x) ∧
    decode (regByteForm 0xF#4 x 0x29) = .ok (.ldF x) ∧
    decode (regByteForm 0xF#4 x 0x33) = .ok (.ldB x) ∧
    decode (regByteForm 0xF#4 x 0x55) = .ok (.stRegs x) ∧
    decode (regByteForm 0xF#4 x 0x65) = .ok (.ldRegs x) := by
  simp [decode, decodeFamilyE, decodeFamilyF]

theorem regReg_decodes (x y : RegIdx) :
    decode (regRegForm 0x8#4 x y 0x0) = .ok (.ldReg x y) ∧
    decode (regRegForm 0x8#4 x y 0x1) = .ok (.orReg x y) ∧
    decode (regRegForm 0x8#4 x y 0x2) = .ok (.andReg x y) ∧
    decode (regRegForm 0x8#4 x y 0x3) = .ok (.xorReg x y) ∧
    decode (regRegForm 0x8#4 x y 0x4) = .ok (.addReg x y) ∧
    decode (regRegForm 0x8#4 x y 0x5) = .ok (.subReg x y) ∧
    decode (regRegForm 0x8#4 x y 0x6) = .ok (.shr x y) ∧
    decode (regRegForm 0x8#4 x y 0x7) = .ok (.subn x y) ∧
    decode (regRegForm 0x8#4 x y 0xE) = .ok (.shl x y) := by
  simp [decode, decodeFamily8]

theorem nibble_decodes (x y : RegIdx) (n : Nibble) :
    decode (regRegForm 0x5#4 x y n) = .ok (.seReg x y n) ∧
    decode (regRegForm 0x9#4 x y n) = .ok (.sneReg x y n) ∧
    decode (regRegForm 0xD#4 x y n) = .ok (.drw x y n.toFin) := by
  simp [decode]

/-! ## The instructions -/

theorem cls : Statement .cls := fun _ => rfl
theorem ret : Statement .ret := fun _ => rfl
theorem sys (nnn : Addr) : Statement (.sys nnn) := fun h => sys_decodes nnn h
theorem jp (nnn : Addr) : Statement (.jp nnn) := fun _ => (addr_decodes nnn).1
theorem call (nnn : Addr) : Statement (.call nnn) := fun _ => (addr_decodes nnn).2.1
theorem seByte (x : RegIdx) (nn : Byte) : Statement (.seByte x nn) :=
  fun _ => (regByte_decodes x nn).1
theorem sneByte (x : RegIdx) (nn : Byte) : Statement (.sneByte x nn) :=
  fun _ => (regByte_decodes x nn).2.1
theorem seReg (x y : RegIdx) (n : Nibble) : Statement (.seReg x y n) :=
  fun _ => (nibble_decodes x y n).1
theorem ldByte (x : RegIdx) (nn : Byte) : Statement (.ldByte x nn) :=
  fun _ => (regByte_decodes x nn).2.2.1
theorem addByte (x : RegIdx) (nn : Byte) : Statement (.addByte x nn) :=
  fun _ => (regByte_decodes x nn).2.2.2.1
theorem ldReg (x y : RegIdx) : Statement (.ldReg x y) := fun _ => (regReg_decodes x y).1
theorem orReg (x y : RegIdx) : Statement (.orReg x y) := fun _ => (regReg_decodes x y).2.1
theorem andReg (x y : RegIdx) : Statement (.andReg x y) := fun _ => (regReg_decodes x y).2.2.1
theorem xorReg (x y : RegIdx) : Statement (.xorReg x y) := fun _ => (regReg_decodes x y).2.2.2.1
theorem addReg (x y : RegIdx) : Statement (.addReg x y) := fun _ => (regReg_decodes x y).2.2.2.2.1
theorem subReg (x y : RegIdx) : Statement (.subReg x y) := fun _ => (regReg_decodes x y).2.2.2.2.2.1
theorem shr (x y : RegIdx) : Statement (.shr x y) := fun _ => (regReg_decodes x y).2.2.2.2.2.2.1
theorem subn (x y : RegIdx) : Statement (.subn x y) := fun _ => (regReg_decodes x y).2.2.2.2.2.2.2.1
theorem shl (x y : RegIdx) : Statement (.shl x y) := fun _ => (regReg_decodes x y).2.2.2.2.2.2.2.2
theorem sneReg (x y : RegIdx) (n : Nibble) : Statement (.sneReg x y n) :=
  fun _ => (nibble_decodes x y n).2.1
theorem ldI (nnn : Addr) : Statement (.ldI nnn) := fun _ => (addr_decodes nnn).2.2.1
theorem jpV0 (nnn : Addr) : Statement (.jpV0 nnn) := fun _ => (addr_decodes nnn).2.2.2
theorem rnd (x : RegIdx) (nn : Byte) : Statement (.rnd x nn) :=
  fun _ => (regByte_decodes x nn).2.2.2.2
theorem drw (x y : RegIdx) (n : Fin 16) : Statement (.drw x y n) :=
  fun _ => (nibble_decodes x y (nib n)).2.2
theorem skp (x : RegIdx) : Statement (.skp x) := fun _ => (register_decodes x).1
theorem sknp (x : RegIdx) : Statement (.sknp x) := fun _ => (register_decodes x).2.1
theorem ldVxDT (x : RegIdx) : Statement (.ldVxDT x) := fun _ => (register_decodes x).2.2.1
theorem ldVxK (x : RegIdx) : Statement (.ldVxK x) := fun _ => (register_decodes x).2.2.2.1
theorem ldDTVx (x : RegIdx) : Statement (.ldDTVx x) := fun _ => (register_decodes x).2.2.2.2.1
theorem ldSTVx (x : RegIdx) : Statement (.ldSTVx x) := fun _ => (register_decodes x).2.2.2.2.2.1
theorem addI (x : RegIdx) : Statement (.addI x) := fun _ => (register_decodes x).2.2.2.2.2.2.1
theorem ldF (x : RegIdx) : Statement (.ldF x) := fun _ => (register_decodes x).2.2.2.2.2.2.2.1
theorem ldB (x : RegIdx) : Statement (.ldB x) := fun _ => (register_decodes x).2.2.2.2.2.2.2.2.1
theorem stRegs (x : RegIdx) : Statement (.stRegs x) :=
  fun _ => (register_decodes x).2.2.2.2.2.2.2.2.2.1
theorem ldRegs (x : RegIdx) : Statement (.ldRegs x) :=
  fun _ => (register_decodes x).2.2.2.2.2.2.2.2.2.2

end EncodingRoundTrip
end Laws
end Sys2Proof
end

