-- ==== Sys2Proof/Laws/Ports.lean ====
section
/-! SUPPORT. What each of the host's operations answers in a phase that admits it (70_reset_and_hazards.md
R250 to R255), and what the display port presents (60_exceptions.md R240). -/

namespace Sys2Proof
namespace Machine

/-- An operation the phase does not admit stops under its name (R255). -/
theorem hostCall_notAdmitted {c : HostCall} {s : State} (h : admitted c.op s.phase = false) :
    hostCall c s = .fault (.notAdmitted c.op s.phase) := by
  unfold hostCall; rw [if_neg (by simp [h])]

theorem hostCall_init (s : State) : hostCall .init s = .next (initCore s, .done) := rfl

theorem hostCall_loadProgram {rom : RomSource} {s : State} (h : s.phase = .ready) :
    hostCall (.loadProgram rom) s = .next (loadProgram rom s) := by
  rw [hostCall, if_pos (by simp [HostCall.op, admitted, h])]

theorem hostCall_setKey {index : Nat} {pressed : Bool} {s : State} (h : s.phase ≠ .uninit) :
    hostCall (.setKey index pressed) s = .next (setKey index pressed s, .done) := by
  rw [hostCall, if_pos (by simp [HostCall.op, admitted, h])]

theorem hostCall_getDisplay {s : State} (h : s.phase ≠ .uninit) :
    hostCall .getDisplay s = .next (s, .display (displayWords s.disp)) := by
  rw [hostCall, if_pos (by simp [HostCall.op, admitted, h])]

theorem hostCall_getKeys {s : State} (h : s.phase ≠ .uninit) :
    hostCall .getKeys s = .next (s, .keys s.key) := by
  rw [hostCall, if_pos (by simp [HostCall.op, admitted, h])]

theorem hostCall_readFault {s : State} (h : s.phase ≠ .uninit) :
    hostCall .readFault s = .next (s, .faultRecord s.fault) := by
  rw [hostCall, if_pos (by simp [HostCall.op, admitted, h])]

/-- A `runCycle` of a runnable core is its step. -/
theorem hostCall_runCycle {s t : State} (h : step s = .next t) :
    hostCall .runCycle s = .next (t, .done) := by
  obtain ⟨hp | hp, _⟩ := runnable_of_step h <;>
    rw [hostCall, if_pos (by simp [HostCall.op, admitted, hp])] <;> simp only [h]

/-- A `runCycle` of a halted core stops (R112). -/
theorem hostCall_halted {s : State} {r : FaultRecord} (hp : s.phase = .ready ∨ s.phase = .running)
    (hf : s.fault = some r) : hostCall .runCycle s = .fault (.halted r) := by
  rcases hp with hp | hp <;>
    simp [hostCall, HostCall.op, admitted, step, cycleGate, hp, hf]

/-- Loading either fits, or leaves LOAD_FAILED and nothing else (R252, R253). -/
theorem loadProgram_cases (rom : RomSource) (s : State) :
    (∃ bs, rom = .bytes bs ∧ bs.length ≤ 3584 ∧
      loadProgram rom s = ({ s with mem := s.mem.putBytes 0x200 bs }, .done)) ∨
    (∃ r, loadProgram rom s = ({ s with phase := .loadFailed }, r)) := by
  cases rom with
  | readFailure => exact .inr ⟨_, rfl⟩
  | bytes bs =>
    by_cases h : bs.length ≤ 3584
    · exact .inl ⟨bs, rfl, h, by
        rw [loadProgram, if_neg (by simp [Config.maxRom]; omega)]⟩
    · exact .inr ⟨.romTooLarge, by
        rw [loadProgram, if_pos (by simp [Config.maxRom]; omega)]⟩

/-- A key flag after `setKey` (R241). -/
theorem setKey_get (index : Nat) (pressed : Bool) (s : State) (k : KeyIdx) :
    (setKey index pressed s).key[k] = if k.val = index then pressed else s.key[k] := by
  have := k.isLt
  unfold setKey
  split
  · next h =>
    show (s.key.set index pressed h)[k.val] = _
    rw [Vector.getElem_set]
    by_cases e : index = k.val
    · rw [if_pos e, if_pos e.symm]
    · rw [if_neg e, if_neg fun e' => e e'.symm]; rfl
  · next h => rw [if_neg (by omega)]

/-- Cell (x, y) is the word at index y × 64 + x (R240). -/
theorem displayWords_get (d : Display) (cx : Col) (cy : Row) (k : Fin 2048)
    (h : k.val = cy.val * 64 + cx.val) : (displayWords d)[k] = pixelWord d[cx][cy] := by
  have h1 : k.val % 64 = cx.val := by omega
  have h2 : k.val / 64 = cy.val := by omega
  simp [displayWords, h1, h2]

end Machine
end Sys2Proof
end

