-- ==== Sys2Proof/Tests/Slice0.lean ====
section
/-! SUPPORT. The model's own tests: ill-formed terms, words written out from the encoding, one step on
a small state with the result spec/95_test_vectors.md gives (its row is named), and for every
statement with hypotheses a concrete state and operands that meet them. -/

namespace Sys2Proof
namespace Machine
namespace Tests

/-! ## Well-formedness: the one check, and terms it refuses (R84, R104) -/

theorem test_wellFormed_sys_00E0_refused : (Instr.sys 0x0E0).wellFormed = false := by decide
theorem test_wellFormed_sys_00EE_refused : (Instr.sys 0x0EE).wellFormed = false := by decide
theorem test_wellFormed_sys_neighbours :
    (Instr.sys 0x0DF).wellFormed = true ∧ (Instr.sys 0x0E1).wellFormed = true ∧
    (Instr.sys 0x0ED).wellFormed = true ∧ (Instr.sys 0x0EF).wellFormed = true ∧
    (Instr.sys 0x1E0).wellFormed = true := by decide

/-! ## Decoding: one word per constructor, from the patterns of R84 and the fields of R81 -/

theorem test_decode_family0 :
    decode 0x00E0 = .ok .cls ∧ decode 0x00EE = .ok .ret ∧ decode 0x01E0 = .ok (.sys 0x1E0) := by
  decide
theorem test_decode_jump_call_families :
    decode 0x1ABC = .ok (.jp 0xABC) ∧ decode 0x2DEF = .ok (.call 0xDEF) ∧
    decode 0xB218 = .ok (.jpV0 0x218) ∧ decode 0xA2F0 = .ok (.ldI 0x2F0) := by decide
theorem test_decode_register_byte_families :
    decode 0x3A42 = .ok (.seByte 0xA 0x42) ∧ decode 0x4B43 = .ok (.sneByte 0xB 0x43) ∧
    decode 0x6A5C = .ok (.ldByte 0xA 0x5C) ∧ decode 0x73FE = .ok (.addByte 3 0xFE) ∧
    decode 0xC30F = .ok (.rnd 3 0x0F) := by decide
theorem test_decode_register_compare_families :
    decode 0x5120 = .ok (.seReg 1 2 0) ∧ decode 0x5127 = .ok (.seReg 1 2 7) ∧
    decode 0x9120 = .ok (.sneReg 1 2 0) ∧ decode 0x912F = .ok (.sneReg 1 2 0xF) := by decide
theorem test_decode_family8_logic :
    decode 0x8120 = .ok (.ldReg 1 2) ∧ decode 0x8341 = .ok (.orReg 3 4) ∧
    decode 0x8562 = .ok (.andReg 5 6) ∧ decode 0x8783 = .ok (.xorReg 7 8) := by decide
theorem test_decode_family8_arithmetic :
    decode 0x8124 = .ok (.addReg 1 2) ∧ decode 0x89A5 = .ok (.subReg 9 0xA) ∧
    decode 0x8BC6 = .ok (.shr 0xB 0xC) ∧ decode 0x8DE7 = .ok (.subn 0xD 0xE) ∧
    decode 0x8F0E = .ok (.shl 0xF 0) := by decide
theorem test_decode_draw : decode 0xD015 = .ok (.drw 0 1 5) ∧ decode 0xDEF0 = .ok (.drw 0xE 0xF 0) := by
  decide
theorem test_decode_familyE : decode 0xE29E = .ok (.skp 2) ∧ decode 0xEFA1 = .ok (.sknp 0xF) := by
  decide
theorem test_decode_familyF_timers :
    decode 0xF407 = .ok (.ldVxDT 4) ∧ decode 0xF50A = .ok (.ldVxK 5) ∧
    decode 0xF615 = .ok (.ldDTVx 6) ∧ decode 0xFA18 = .ok (.ldSTVx 0xA) := by decide
theorem test_decode_familyF_memory :
    decode 0xF41E = .ok (.addI 4) ∧ decode 0xF129 = .ok (.ldF 1) ∧ decode 0xF233 = .ok (.ldB 2) ∧
    decode 0xFF55 = .ok (.stRegs 0xF) ∧ decode 0xF065 = .ok (.ldRegs 0) := by decide
/-- FD9: words no row selects. -/
theorem test_decode_unknown :
    decode 0xE000 = .error (.unknownOpcode 0xE000) ∧ decode 0xE09F = .error (.unknownOpcode 0xE09F) ∧
    decode 0xF000 = .error (.unknownOpcode 0xF000) ∧ decode 0xF0FF = .error (.unknownOpcode 0xF0FF) ∧
    decode 0x800F = .error (.unknownOpcode 0x800F) ∧ decode 0x8008 = .error (.unknownOpcode 0x8008) := by
  decide
theorem test_decodeBytes_big_endian :
    decodeBytes [0x12, 0x34, 0x56] = .ok (.jp 0x234, [0x56]) ∧ decodeBytes [0x12] = .error .truncated := by
  decide
theorem test_decodeTableWord :
    decodeTableWord 16 0x8124 = some (.addReg 1 2) ∧ decodeTableWord 16 0x8008 = none := by decide

/-! ## One step, "the instruction is at PC = 0x300" (spec/95_test_vectors.md) -/

/-- The vectors' start: the reset state, phase RUNNING. -/
def base : State := { State.reset with phase := .running }

/-- The word at 0x300, PC there. -/
def at300 (w : Nat) (s : State) : State := { s with pc := 0x300 }.withFetchWord 16 w

/-- One cycle of the word answers a state of which `p` holds. -/
def ran (w : Nat) (s : State) (p : State → Bool) : Bool :=
  match step (at300 w s) with
  | .next t => p t
  | _ => false

/-- The registers V0, V1, V2 and so on of a test's start state. -/
def withRegs (bs : List Byte) (s : State) : State := { s with v := loadedRegs s.v bs }

/-- The memory bytes from an address on, of a test's start state; I is that address. -/
def withBytes (a : Nat) (bs : List Byte) (s : State) : State :=
  { s with mem := s.mem.putBytes a bs, i := BitVec.ofNat 16 a }

/-- VF of a test's start state. -/
def withVf (b : Byte) (s : State) : State := { s with v := s.v.set 15 b }

/-- The fault of a test's end, with the registers, timers, memory and outputs as before the cycle. -/
def faulted (w : Nat) (s : State) (k : FaultKind) (op : Word) (addr : Nat) : Bool :=
  ran w s fun t =>
    t.fault == some { kind := k, pc := 0x300, opcode := op, addr := addr } && t.pc == 0x300 &&
      t.v == s.v && t.i == s.i && t.sp == s.sp && t.stack == s.stack && t.dt == s.dt &&
      t.st == s.st && t.mem.cells == (at300 w s).mem.cells && t.events == s.events

/-- The cells of a row, columns 0 to 7. -/
def rowCells (d : Display) (cy : Row) : List Bool :=
  [d[0][cy], d[1][cy], d[2][cy], d[3][cy], d[4][cy], d[5][cy], d[6][cy], d[7][cy]]

/-! ### Control flow -/

/-- CF1. -/
theorem test_jp : ran 0x1ABC base (fun t => t.pc == 0xABC && t.sp == 0) = true := by decide
/-- CF7. -/
theorem test_call : ran 0x2301 base
    (fun t => t.pc == 0x301 && t.sp == 1 && t.stack[0] == 0x302 && t.stack[1] == 0) = true := by decide
/-- CF6. -/
theorem test_call_overflow :
    faulted 0x2400 { base with sp := 16 } .stackOverflow 0x2400 0 = true := by decide
/-- CF8, at 0x300. -/
theorem test_ret : ran 0x00EE { base with sp := 1, stack := base.stack.set 0 0x302 }
    (fun t => t.pc == 0x302 && t.sp == 0 && t.stack[0] == 0x302) = true := by decide
/-- FD12: precise, no tick, no tone. -/
theorem test_ret_underflow :
    faulted 0x00EE { base with dt := 5, st := 5 } .stackUnderflow 0x00EE 0 = true := by decide
/-- FD8: 01E0 is no CLS. -/
theorem test_sys : ran 0x01E0 { base with disp := base.disp.set 3 (base.disp[3].set 4 true) }
    (fun t => t.pc == 0x302 && t.disp[3][4] && t.events == [.unknownOpcode 0x01E0 0x300]) = true := by
  decide
/-- CF10. -/
theorem test_seByte :
    (ran 0x3342 (withRegs [0, 0, 0, 0x42] base) (fun t => t.pc == 0x304) &&
      ran 0x3343 (withRegs [0, 0, 0, 0x42] base) fun t => t.pc == 0x302) = true := by decide
/-- CF11. -/
theorem test_sneByte :
    (ran 0x4342 (withRegs [0, 0, 0, 0x42] base) (fun t => t.pc == 0x302) &&
      ran 0x4343 (withRegs [0, 0, 0, 0x42] base) fun t => t.pc == 0x304) = true := by decide
/-- FD10, CF13. -/
theorem test_seReg :
    (ran 0x5127 (withRegs [0, 7, 7] base) (fun t => t.pc == 0x304) &&
      ran 0x5120 (withRegs [0, 7, 8] base) fun t => t.pc == 0x302) = true := by decide
/-- FD11, CF16. -/
theorem test_sneReg :
    (ran 0x912F (withRegs [0, 7, 8] { base with i := 0x123 }) (fun t => t.pc == 0x304 && t.i == 0x123) &&
      ran 0x9110 (withRegs [0, 7] base) fun t => t.pc == 0x302) = true := by decide
/-- CF18. -/
theorem test_jpV0 : ran 0xBFFF (withRegs [0xFF] base) (fun t => t.pc == 0x10FE) = true := by decide

/-! ### ALU -/

/-- AL1, AL2. -/
theorem test_ldByte :
    (ran 0x6A5C base (fun t => t.v[10] == 0x5C && t.v[15] == 0) &&
      ran 0x6FFF base fun t => t.v[15] == 0xFF) = true := by decide
/-- AL3. -/
theorem test_addByte :
    ran 0x7001 (withVf 0x77 (withRegs [0xFF] base)) (fun t => t.v[0] == 0 && t.v[15] == 0x77) = true := by
  decide
/-- AL5. -/
theorem test_ldReg :
    ran 0x8120 (withVf 1 (withRegs [0, 0, 0x5A] base)) (fun t => t.v[1] == 0x5A && t.v[15] == 0) = true := by
  decide
/-- AL6: the flag write supersedes the result. -/
theorem test_ldReg_vf : ran 0x8F20 (withRegs [0, 0, 0x5A] base) (fun t => t.v[15] == 0) = true := by
  decide
/-- AL8. -/
theorem test_orReg : ran 0x8121 (withVf 1 (withRegs [0, 0xF0, 0x0F] base))
    (fun t => t.v[1] == 0xFF && t.v[2] == 0x0F && t.v[15] == 0) = true := by decide
/-- AL9. -/
theorem test_andReg : ran 0x8122 (withVf 1 (withRegs [0, 0xF0, 0x3C] base))
    (fun t => t.v[1] == 0x30 && t.v[15] == 0) = true := by decide
/-- AL10. -/
theorem test_xorReg : ran 0x8123 (withVf 1 (withRegs [0, 0xFF, 0x0F] base))
    (fun t => t.v[1] == 0xF0 && t.v[15] == 0) = true := by decide
/-- SV3. -/
theorem test_addReg :
    (ran 0x8124 (withRegs [0, 0xFF, 1] base) (fun t => t.v[1] == 0 && t.v[15] == 1) &&
      ran 0x8124 (withRegs [0, 1, 1] base) fun t => t.v[1] == 2 && t.v[15] == 0) = true := by decide
/-- AL15: the old VF is an operand, and VF ends as the flag. -/
theorem test_addReg_vf :
    ran 0x8F24 (withVf 0x10 (withRegs [0, 0, 0xF0] base)) (fun t => t.v[15] == 1) = true := by decide
/-- AL17, AL18. -/
theorem test_subReg :
    (ran 0x8125 (withRegs [0, 5, 3] base) (fun t => t.v[1] == 2 && t.v[15] == 1) &&
      ran 0x8125 (withRegs [0, 3, 5] base) fun t => t.v[1] == 0xFE && t.v[15] == 0) = true := by decide
/-- AL19: strictly greater. -/
theorem test_subReg_equal :
    ran 0x8125 (withRegs [0, 7, 7] base) (fun t => t.v[1] == 0 && t.v[15] == 0) = true := by decide
/-- SV4, AL22: Y is not read. -/
theorem test_shr :
    (ran 0x8106 (withRegs [0, 3] base) (fun t => t.v[1] == 1 && t.v[15] == 1) &&
      ran 0x8126 (withRegs [0, 0x80, 0xFF] base) fun t => t.v[1] == 0x40 && t.v[15] == 0) = true := by
  decide
/-- AL25, AL26. -/
theorem test_subn :
    (ran 0x8127 (withRegs [0, 3, 5] base) (fun t => t.v[1] == 2 && t.v[15] == 1) &&
      ran 0x8127 (withRegs [0, 5, 3] base) fun t => t.v[1] == 0xFE && t.v[15] == 0) = true := by decide
/-- SV4, AL29. -/
theorem test_shl :
    (ran 0x810E (withRegs [0, 0x81] base) (fun t => t.v[1] == 2 && t.v[15] == 1) &&
      ran 0x812E (withRegs [0, 0xFF, 0] base) fun t => t.v[1] == 0xFE && t.v[15] == 1) = true := by decide
/-- SV17, for whatever byte is drawn: the drawn byte AND 0x0F. -/
theorem test_rnd : exec (.rnd 3 0x0F) base =
    .next { base with v := base.v.set 3 (Config.rand 0 &&& 0x0F), draws := 1 } := rfl

/-! ### Display -/

/-- DS1. -/
theorem test_cls : ran 0x00E0 (withVf 0x42 { base with disp := base.disp.set 3 (base.disp[3].set 4 true) })
    (fun t => !t.disp[3][4] && t.v[15] == 0x42) = true := by decide
/-- SV7: columns 60 to 63 and 0 to 3. -/
theorem test_drw_wraps : ran 0xD011 (withBytes 0x500 [0xFF] (withRegs [60, 0] base))
    (fun t => t.disp[60][0] && t.disp[63][0] && rowCells t.disp 0 ==
      [true, true, true, true, false, false, false, false] && t.v[15] == 0) = true := by decide
/-- DS4: only bit index 3 is set; cell (3, 0) goes off and cell (0, 0) stays on. -/
theorem test_drw_collides : ran 0xD011 (withBytes 0x500 [0x10]
      { base with disp := (base.disp.set 3 (base.disp[3].set 0 true)).set 0 (base.disp[0].set 0 true) })
    (fun t => rowCells t.disp 0 == [true, false, false, false, false, false, false, false] &&
      t.v[15] == 1 && t.i == 0x500) = true := by decide

/-! ### Keypad and timers -/

/-- TM1, TM2. -/
theorem test_skp :
    (ran 0xE29E (withRegs [0, 0, 3] { base with key := base.key.set 3 true }) (fun t => t.pc == 0x304) &&
      ran 0xE29E (withRegs [0, 0, 3] base) fun t => t.pc == 0x302) = true := by decide
/-- TM5. -/
theorem test_skp_range :
    faulted 0xE29E (withRegs [0, 0, 0x10] base) .keyIndexRange 0xE29E 0x10 = true := by decide
/-- TM3, TM4. -/
theorem test_sknp :
    (ran 0xE2A1 (withRegs [0, 0, 3] { base with key := base.key.set 3 true }) (fun t => t.pc == 0x302) &&
      ran 0xE2A1 (withRegs [0, 0, 3] base) fun t => t.pc == 0x304) = true := by decide
/-- TM5. -/
theorem test_sknp_range :
    faulted 0xE2A1 (withRegs [0, 0, 0x10] base) .keyIndexRange 0xE2A1 0x10 = true := by decide
/-- TM7. -/
theorem test_ldVxDT : ran 0xF407 { base with dt := 9 } (fun t => t.v[4] == 9 && t.dt == 8) = true := by
  decide
/-- TM15. -/
theorem test_ldVxK : ran 0xF50A { base with key := (base.key.set 3 true).set 9 true }
    (fun t => t.v[5] == 9 && t.pc == 0x302) = true := by decide
/-- TM14. -/
theorem test_ldVxK_waits : ran 0xF50A { base with dt := 2 }
    (fun t => t.v[5] == 0 && t.pc == 0x300 && t.dt == 1) = true := by decide
/-- TM9. -/
theorem test_ldDTVx : ran 0xF415 (withRegs [0, 0, 0, 0, 3] base) (fun t => t.dt == 2) = true := by decide
/-- TM12, TM13. -/
theorem test_ldSTVx :
    (ran 0xF418 (withRegs [0, 0, 0, 0, 1] base) (fun t => t.st == 0 && t.events == [.tone]) &&
      ran 0xF418 base fun t => t.st == 0 && t.events == []) = true := by decide

/-! ### Index register and memory -/

/-- MT1. -/
theorem test_ldI : ran 0xA2F0 base (fun t => t.i == 0x2F0 && t.pc == 0x302) = true := by decide
/-- SV15. -/
theorem test_addI : ran 0xF11E (withVf 0x55 (withRegs [0, 1] { base with i := 0xFFFF }))
    (fun t => t.i == 0 && t.v[15] == 0x55) = true := by decide
/-- MT5. -/
theorem test_ldF : ran 0xF129 (withRegs [0, 0xFF] base) (fun t => t.i == 0x4FB) = true := by decide
/-- SV8. -/
theorem test_ldB : ran 0xF233 (withRegs [0, 0, 0xEA] { base with i := 0x400 })
    (fun t => t.mem.byte 0x400 == 2 && t.mem.byte 0x401 == 3 && t.mem.byte 0x402 == 4 &&
      t.i == 0x400) = true := by decide
/-- MT10. -/
theorem test_ldB_bounds :
    faulted 0xF233 { base with i := 0xFFE } .memoryBounds 0xF233 0x1000 = true := by decide
/-- MT11. -/
theorem test_stRegs : ran 0xF255 (withRegs [1, 2, 3, 4] { base with i := 0x400 })
    (fun t => t.mem.byte 0x400 == 1 && t.mem.byte 0x402 == 3 && t.mem.byte 0x403 == 0 &&
      t.i == 0x400) = true := by decide
/-- MT19: the font is plain memory. -/
theorem test_stRegs_font : ran 0xF055 (withRegs [0xAA] base)
    (fun t => t.mem.byte 0 == 0xAA && t.mem.byte 1 == 0x90) = true := by decide
/-- MT15. -/
theorem test_ldRegs : ran 0xF265 (withBytes 0x400 [7, 8, 9, 10] base)
    (fun t => t.v[0] == 7 && t.v[1] == 8 && t.v[2] == 9 && t.v[3] == 0 && t.i == 0x400) = true := by
  decide
/-- MT17. -/
theorem test_ldRegs_bounds :
    faulted 0xFF65 { base with i := 0xFF8 } .memoryBounds 0xFF65 0x1000 = true := by decide

/-! ### The cycle, reset and the host -/

/-- FD2: a fetch at an odd address. -/
theorem test_odd_fetch : (match step ({ base with pc := 0x201 }.withFetchWord 16 0x6055) with
    | .next t => t.v[0] == 0x55 && t.pc == 0x203
    | _ => false) = true := by decide
/-- TM17. -/
theorem test_unknown_opcode : ran 0x8008 { base with dt := 1, st := 1 }
    (fun t => t.pc == 0x302 && t.dt == 0 && t.st == 0 &&
      t.events == [.unknownOpcode 0x8008 0x300, .tone]) = true := by decide
/-- FD5: the second byte is outside memory. -/
theorem test_fetch_fault : (match step { base with pc := 0xFFF } with
    | .next t => t.pc == 0xFFF && t.fault == some ⟨.memoryBounds, 0xFFF, 0, 0x1000⟩ && t.events == []
    | _ => false) = true := by decide
/-- HO6: the first cycle after reset with nothing loaded. -/
theorem test_step_reset : (match step State.reset with
    | .next t => t.pc == 0x202 && t.phase == .running && t.events == [.unknownOpcode 0x0000 0x200]
    | _ => false) = true := by decide
/-- A word placed where reset fetches is the first to run. -/
theorem test_withFetchWord : (match step (State.reset.withFetchWord 16 0x6A5C) with
    | .next t => t.v[10] == 0x5C && t.phase == .running
    | _ => false) = true := by decide
/-- HO1: after a fault, everything is as after reset, but for the model's own record of outputs. -/
theorem test_initCore : initCore { base with
      pc := 0x300, sp := 3, dt := 7, key := base.key.set 2 true, events := [.tone]
      mem := base.mem.put 0 1, fault := some ⟨.stackUnderflow, 0x300, 0x00EE, 0⟩ } =
    { State.reset with events := [.tone] } := by decide
/-- HO2, HO5. -/
theorem test_loadProgram :
    (loadProgram (.bytes [0x12, 0x00]) State.reset).1.mem.byte 0x200 = 0x12 ∧
    (loadProgram (.bytes [0x12, 0x00]) State.reset).2 = .done ∧
    loadProgram .readFailure State.reset = ({ State.reset with phase := .loadFailed }, .ioError) := by
  decide
/-- SV18. -/
theorem test_setKey :
    setKey 16 true base = base ∧ (setKey 15 true base).key = base.key.set 15 true := by decide

/-! ## Witnesses: states and operands that meet the hypotheses of the statements -/

/-- The core at 0x300 with a word there. -/
def holding (w : Nat) : State := at300 w base

theorem holding_executes (w : Nat) (i : Instr) (h : decode (holding w).wordAtPc = .ok i)
    (f : (holding w).fault = none) (p : (holding w).phase = .running)
    (n : (holding w).pc.toNat ≤ 0xFFE) : (holding w).executes i := ⟨⟨.inr p, f⟩, n, h⟩

theorem witness_DecodeInvertsEncode :
    (Instr.sys 0xFFF).wellFormed = true ∧ (Instr.seReg 15 15 15).wellFormed = true ∧
    (Instr.drw 15 0 15).wellFormed = true := by decide
theorem witness_EncodeInvertsDecode : decode 0x00EF = .ok (.sys 0x0EF) := by decide
/-- Both clauses: one instruction completes, one takes a fault. -/
theorem witness_StepRunsDecodedInstruction :
    (holding 0x6A5C).executes (.ldByte 10 0x5C) ∧ (holding 0x00EE).executes .ret :=
  ⟨holding_executes _ _ (by decide) rfl rfl (by decide),
    holding_executes _ _ (by decide) rfl rfl (by decide)⟩
theorem witness_CompletedCycleAgesTimersByOne :
    (∃ t, step (holding 0xF015) = .next t ∧ t.fault = none) ∧
    (∃ t, step (holding 0xF018) = .next t ∧ t.fault = none) ∧
    ∃ t, step State.reset = .next t ∧ t.fault = none := ⟨⟨_, rfl, rfl⟩, ⟨_, rfl, rfl⟩, ⟨_, rfl, rfl⟩⟩
theorem witness_DelayTimerCountsCycles :
    ∃ t, core.run 1 { State.reset with dt := 1 } = .next t ∧ t.fault = none ∧
      ∀ (j : Nat) (u : State) (x : RegIdx), j < 1 →
        core.run j { State.reset with dt := 1 } = .next u → decode u.wordAtPc ≠ .ok (.ldDTVx x) := by
  refine ⟨_, rfl, rfl, fun j u x hj h => ?_⟩
  obtain rfl : j = 0 := by omega
  cases h
  revert x; decide
theorem witness_UnknownOpcodeCycleCompletes :
    (holding 0x8008).fetches 0x8008 ∧ decode 0x8008 = .error (.unknownOpcode 0x8008) :=
  ⟨⟨⟨.inr rfl, rfl⟩, by decide, by decide⟩, by decide⟩
/-- Both clauses at the limit. -/
theorem witness_FetchReadsBigEndianWord :
    ({ base with pc := 0xFFE } : State).pc.toNat ≤ 0xFFE ∧
    0xFFE < ({ base with pc := 0xFFF } : State).pc.toNat := by decide
theorem witness_FetchFaultIsRecorded :
    ({ base with pc := 0xFFF } : State).runnable ∧ 0xFFE < ({ base with pc := 0xFFF } : State).pc.toNat ∧
    ({ base with pc := 0xFFFF } : State).runnable ∧ 0xFFE < ({ base with pc := 0xFFFF } : State).pc.toNat :=
  ⟨⟨.inr rfl, rfl⟩, by decide, ⟨.inr rfl, rfl⟩, by decide⟩
/-- A fault of the execute phase and one of the fetch. -/
theorem witness_FaultsArePrecise :
    (∃ t, step (holding 0x00EE) = .next t ∧ t.fault ≠ none) ∧
    ∃ t, step { base with pc := 0xFFF } = .next t ∧ t.fault ≠ none :=
  ⟨⟨_, rfl, by decide⟩, ⟨_, rfl, by decide⟩⟩
theorem witness_StepExactlyWhenRunnable :
    State.reset.runnable ∧
    (({ base with fault := some ⟨.stackOverflow, 0x300, 0x2400, 0⟩ } : State).phase = .running ∧
      ({ base with fault := some ⟨.stackOverflow, 0x300, 0x2400, 0⟩ } : State).fault =
        some ⟨.stackOverflow, 0x300, 0x2400, 0⟩) ∧
    ({ base with phase := .uninit } : State).phase = .uninit ∧
    ({ base with phase := .loadFailed } : State).phase = .loadFailed ∧
    ({ base with phase := .loadFailed, fault := some ⟨.stackOverflow, 0x300, 0x2400, 0⟩ } :
      State).phase = .loadFailed :=
  ⟨⟨.inl rfl, rfl⟩, ⟨rfl, rfl⟩, rfl, rfl, rfl⟩
/-- A state with a full stack at the bound, and PC at the largest fetchable address. -/
theorem witness_StepKeepsInvariant :
    (∀ k : Fin 16, (Vector.replicate 16 0x1000#16 : Vector Word 16)[k].toNat ≤ 0x1000) ∧
    ({ base with stack := Vector.replicate 16 0x1000, sp := 16, pc := 0xFFE } : State).Inv ∧
    ∃ t, step { base with stack := Vector.replicate 16 0x1000, sp := 16, pc := 0xFFE } = .next t := by
  have h : ∀ k : Fin 16, (Vector.replicate 16 0x1000#16 : Vector Word 16)[k].toNat ≤ 0x1000 := by decide
  exact ⟨h, ⟨rfl, h, by decide, fun r e => by cases e⟩, _, rfl⟩
theorem witness_JumpGoesToItsAddress :
    (holding 0x1300).fetches (wordNNN 1 0x300) ∧ (holding 0x1300).pc.toNat = (0x300 : Addr).toNat :=
  ⟨⟨⟨.inr rfl, rfl⟩, by decide, by decide⟩, by decide⟩
theorem witness_CallPushesReturnAddress :
    ({ base with sp := 15 } : State).sp.val < 16 ∧ ({ base with sp := 16 } : State).sp.val = 16 := by decide
theorem witness_ReturnPopsIntoPc :
    0 < ({ base with sp := 1 } : State).sp.val ∧ 0 < ({ base with sp := 16 } : State).sp.val ∧
    base.sp.val = 0 := by decide
theorem witness_ReturnAfterCallComesBack : ({ base with sp := 15 } : State).sp.val < 16 := by decide
theorem witness_SysOnlyReportsItself : (0x0DF : Addr) ≠ 0x0E0 ∧ (0x0EF : Addr) ≠ 0x0EE := by decide
theorem witness_OnlyCallAndReturnMoveSp :
    (∃ t, step (holding 0x2400) = .next t) ∧ ∃ t, step (holding 0x00EE) = .next t :=
  ⟨⟨_, rfl⟩, ⟨_, rfl⟩⟩
/-- The register clause of the 8XY* statements, at the highest register that is not VF. -/
theorem witness_MoveAndLogicClearVf : (14 : RegIdx) ≠ vf := by decide
theorem witness_AddSetsCarry : (14 : RegIdx) ≠ vf := by decide
theorem witness_SubtractSetsStrictFlag : (14 : RegIdx) ≠ vf := by decide
theorem witness_ShiftsReportTheBitOut : (14 : RegIdx) ≠ vf := by decide
/-- A sprite that ends at the last byte, and one of no rows outside memory. -/
theorem witness_DrawInvertsTheWrappedSprite :
    spriteInMemory { base with i := 0xFF1 } 15 ∧ spriteInMemory { base with i := 0xFFFF } 0 ∧
    ∀ r b : Nat, r < (5 : Fin 16).val → b < 8 →
      ¬((63 : Col) = spriteX base 0 b ∧ (0 : Row) = spriteY base 1 r) := by
  have h : ∀ r, r < (5 : Fin 16).val → ∀ b, b < 8 →
      ¬((63 : Col) = spriteX base 0 b ∧ (0 : Row) = spriteY base 1 r) := by decide
  exact ⟨.inr (by decide), .inl rfl, fun r b hr hb => h r hr b hb⟩
theorem witness_DrawReportsCollision : spriteInMemory { base with i := 0xFFF } 1 := .inr (by decide)
theorem witness_DrawingTwiceRestoresTheDisplay :
    spriteInMemory base 5 ∧ (0 : RegIdx) ≠ vf ∧ (14 : RegIdx) ≠ vf ∧
    (∀ r b : Nat, r < (5 : Fin 16).val → b < 8 →
      base.disp[spriteX base 0 b][spriteY base 14 r] = false) ∧
    ∃ r b : Nat, r < (5 : Fin 16).val ∧ b < 8 ∧ spriteBit base r b = true := by
  refine ⟨.inr (by decide), by decide, by decide, fun r b _ _ => ?_, 0, 0, by decide, by decide, by decide⟩
  simp [base, State.reset, State.resetWith, Display.allOff]
theorem witness_OnlyDisplayFamilyWritesDisplay :
    (∃ t, step { holding 0xD015 with disp := Display.allOff } = .next t ∧ t.disp ≠ Display.allOff) ∧
    (2047 : Fin 2048).val = (31 : Row).val * 64 + (63 : Col).val := ⟨⟨_, rfl, by decide⟩, by decide⟩
theorem witness_SkipOnKey :
    (withRegs [0x0F] base).v[(0 : RegIdx)].toNat < 16 ∧
    0x0F < (withRegs [0x10] base).v[(0 : RegIdx)].toNat := by decide
theorem witness_ReadDelayTimer : (holding 0xF407).executes (.ldVxDT 4) :=
  holding_executes _ _ (by decide) rfl rfl (by decide)
theorem witness_WriteTimers :
    (holding 0xF415).executes (.ldDTVx 4) ∧ (holding 0xF418).executes (.ldSTVx 4) :=
  ⟨holding_executes _ _ (by decide) rfl rfl (by decide),
    holding_executes _ _ (by decide) rfl rfl (by decide)⟩
/-- Both clauses: the highest key pressed, a lower one, and none. -/
theorem witness_WaitForHighestKey :
    ((base.key.set 15 true)[(15 : KeyIdx)] = true ∧
      ∀ j : KeyIdx, 15 < j → (base.key.set 15 true)[j] = false) ∧
    ((base.key.set 0 true)[(0 : KeyIdx)] = true ∧
      ∀ j : KeyIdx, 0 < j → (base.key.set 0 true)[j] = false) ∧
    (∀ k : KeyIdx, base.key[k] = false) ∧ (∀ k : KeyIdx, (holding 0xF50A).key[k] = false) ∧
    (holding 0xF50A).executes (.ldVxK 5) :=
  ⟨by decide, by decide, by decide, by decide,
    holding_executes _ _ (by decide) rfl rfl (by decide)⟩
theorem witness_OnlyHostWritesKeys :
    (∃ t, step State.reset = .next t) ∧
    (∀ x : RegIdx, decode State.reset.wordAtPc ≠ .ok (.skp x) ∧
      decode State.reset.wordAtPc ≠ .ok (.sknp x) ∧ decode State.reset.wordAtPc ≠ .ok (.ldVxK x)) ∧
    ∃ t r, hostCall (.setKey 15 true) base = .next (t, r) ∧ t.key ≠ base.key :=
  ⟨⟨_, rfl⟩, by decide, _, _, rfl, by decide⟩
theorem witness_SoundTimerIsNotObservable : ∃ t, step { holding 0xF418 with st := 3 } = .next t := ⟨_, rfl⟩
theorem witness_BcdStoresThreeDigits : ({ base with i := 0xFFD } : State).i.toNat + 2 < 4096 := by decide
theorem witness_StoreRegistersAtIndex :
    ({ base with i := 0xFFF } : State).i.toNat + (0 : RegIdx).val < 4096 ∧
    ({ base with i := 0xFF0 } : State).i.toNat + (15 : RegIdx).val < 4096 := by decide
theorem witness_LoadRegistersFromIndex :
    ({ base with i := 0xFFF } : State).i.toNat + (0 : RegIdx).val < 4096 ∧
    ({ base with i := 0xFF0 } : State).i.toNat + (15 : RegIdx).val < 4096 := by decide
/-- Each clause at the first address that faults. -/
theorem witness_BlockTransferOutsideMemoryFaults :
    4096 ≤ ({ base with i := 0xFFE } : State).i.toNat + 2 ∧
    4096 ≤ ({ base with i := 0xFF1 } : State).i.toNat + (15 : RegIdx).val ∧
    0 < (15 : Fin 16).val ∧ 4096 < ({ base with i := 0xFF2 } : State).i.toNat + (15 : Fin 16).val := by
  decide
theorem witness_LoadAfterStoreRestoresRegisters :
    ({ base with i := 0xFF0 } : State).i.toNat + (15 : RegIdx).val < 4096 := by decide
theorem witness_ReadGivesLastWrite : 4095 < 4096 ∧ 4096 ≤ 4096 := by decide
theorem witness_CanonicalMemoryIsUnique :
    (base.mem.put 0 1).wf = true ∧ ((base.mem.put 0 2).put 0 1).wf = true ∧
    (base.mem.put 0 1).font = ((base.mem.put 0 2).put 0 1).font ∧
    (∀ a, a < 4096 → (base.mem.put 0 1).byte a = ((base.mem.put 0 2).put 0 1).byte a) ∧
    ∃ m', memWrite base.mem 4095 1 = .ok m' := by
  have h : base.mem.put 0 1 = (base.mem.put 0 2).put 0 1 := by decide
  exact ⟨by decide, by decide, by decide, fun a _ => by rw [h], _, rfl⟩
theorem witness_FetchSeesStoredBytes :
    ({ base with i := 0xFFE } : State).i.toNat + (1 : RegIdx).val < 4096 ∧
    (1 : RegIdx).val = (0 : RegIdx).val + 1 ∧ (1 : RegIdx).val ≤ (1 : RegIdx).val ∧
    (0xFFE : Word).toNat = ({ base with i := 0xFFE } : State).i.toNat + (0 : RegIdx).val := by decide
theorem witness_OnlyTheListedInstructionsWriteIndexOrMemory :
    (∃ t, step (holding 0xA2F0) = .next t ∧ t.i ≠ (holding 0xA2F0).i) ∧
    ∃ t, step { holding 0xF055 with i := 0xFFF, v := Vector.replicate 16 1 } = .next t ∧
      t.mem.byte 0xFFF ≠ (holding 0xF055).mem.byte 0xFFF := ⟨⟨_, rfl, by decide⟩, ⟨_, rfl, by decide⟩⟩
/-- A jump to itself, and a recorded fault. -/
theorem witness_EndedRunsStayEnded :
    (holding 0x1300).phase = .running ∧ runEnd (holding 0x1300) = some .success ∧
    runEnd { base with fault := some ⟨.stackOverflow, 0x300, 0x2400, 0⟩ } =
      some (.failure ⟨.stackOverflow, 0x300, 0x2400, 0⟩) := by decide
/-- The jump's target at the limit of a fetch, and below it. -/
theorem witness_IndexedJumpAddsV0 :
    0xFFF ≤ (setPc (indexedTarget 0x00 0xFFF) base).pc.toNat ∧
    ¬0xFFF ≤ (setPc (indexedTarget 0xFF 0xEFF) base).pc.toNat := by decide
/-- Admitted calls, calls that are not, and a halted core. -/
theorem witness_HostOperationsFollowPhaseTable :
    State.reset.phase = .ready ∧ ¬(base.phase = .ready) ∧
    ¬({ base with phase := .uninit } : State).phase ≠ .uninit ∧ base.phase ≠ .uninit ∧
    base.fault = none ∧
    ({ base with fault := some ⟨.stackOverflow, 0x300, 0x2400, 0⟩ } : State).fault =
      some ⟨.stackOverflow, 0x300, 0x2400, 0⟩ := by decide
/-- READY without a fault and with one, the longest program that fits and the shortest that does not. -/
theorem witness_LoadProgramWritesOrFails :
    State.reset.phase = .ready ∧
    ({ State.reset with fault := some ⟨.stackUnderflow, 0x200, 0x00EE, 0⟩ } : State).phase = .ready ∧ (List.replicate 3584 (0 : Byte)).length ≤ 3584 ∧
    3584 < (List.replicate 3585 (0 : Byte)).length := by
  refine ⟨rfl, rfl, ?_, ?_⟩
  · rw [List.length_replicate]
  · rw [List.length_replicate]; decide
theorem witness_BootFetchesTheFirstWord : (List.replicate 3582 (0 : Byte)).length ≤ 3582 := by
  rw [List.length_replicate]
theorem witness_KeyAndReadPorts :
    base.phase ≠ .uninit ∧ (2047 : Fin 2048).val = (31 : Row).val * 64 + (63 : Col).val := by decide

end Tests
end Machine
end Sys2Proof
end

namespace Sys2Proof
namespace Machine

/-! ## Who moves SP (R27)

The frames of `exec_ends` leave SP alone but for 2NNN and 00EE, whose own case lemmas say by how much
they move it. -/

/-- An instruction whose rule lets it change SP is 00EE or 2NNN. -/
theorem sp_mem_partsOf {i : Instr} {s : State} (h : Part.sp ∈ partsOf s i) :
    i = .ret ∨ ∃ nnn, i = .call nnn := by
  cases i with
  | ret => exact .inl rfl
  | call nnn => exact .inr ⟨nnn, rfl⟩
  | _ => simp [partsOf] at h

/-- The execute phase of 2NNN adds 1 to SP, that of 00EE takes 1 off it, and every other one, and
every fault, leaves it. -/
theorem exec_sp {i : Instr} {s t : State} (h : exec i s = .next t) :
    t.sp = s.sp ∨ (∃ nnn, i = .call nnn ∧ t.sp.val = s.sp.val + 1) ∨
      (i = .ret ∧ t.sp.val + 1 = s.sp.val) := by
  by_cases hsp : Part.sp ∈ partsOf s i
  · rcases sp_mem_partsOf hsp with rfl | ⟨nnn, rfl⟩
    · rcases execRet_cases s with ⟨e, _⟩ | ⟨pos, e⟩ <;> (rw [e] at h; cases h)
      · exact .inl rfl
      · exact .inr (.inr ⟨rfl, Nat.sub_add_cancel pos⟩)
    · rcases execCall_cases nnn s with ⟨e, _⟩ | ⟨_, e⟩ <;> (rw [e] at h; cases h)
      · exact .inl rfl
      · exact .inr (.inl ⟨nnn, rfl, rfl⟩)
  · cases exec_ends i s with
    | faulted k a _ eq => rw [eq] at h; cases h; exact .inl rfl
    | completed u eq frame => rw [eq] at h; cases h; exact .inl (frame.sp hsp)

/-- A step moves SP by executing 2NNN or 00EE, and not otherwise. -/
theorem step_sp {s t : State} (h : step s = .next t) :
    t.sp = s.sp ∨ (∃ nnn, decode s.wordAtPc = .ok (.call nnn) ∧ t.sp.val = s.sp.val + 1) ∨
      (decode s.wordAtPc = .ok .ret ∧ t.sp.val + 1 = s.sp.val) := by
  cases ends_of_step h with
  | fetchFaulted _ eq => subst eq; exact .inl rfl
  | unknown _ _ _ eq => subst eq; exact .inl (by simp)
  | faulted _ _ _ _ _ _ eq => subst eq; exact .inl rfl
  | completed _ i dec u run _ eq =>
    subst eq
    rw [timerTick_sp]
    rcases exec_sp run with same | ⟨nnn, rfl, up⟩ | ⟨rfl, down⟩
    · exact .inl same
    · exact .inr (.inl ⟨nnn, dec, up⟩)
    · exact .inr (.inr ⟨dec, down⟩)

/-- Settles O25: the type of SP bounds it, and `step_sp` says which steps move it. -/
theorem onlyCallAndReturnMoveSp : Obligations.OnlyCallAndReturnMoveSp :=
  ⟨rfl, fun s t h => ⟨Nat.le_of_lt_succ s.sp.isLt, Nat.le_of_lt_succ t.sp.isLt, step_sp h⟩⟩

/-! ## Equations for the branches of 00EE, of 2NNN and of a cycle's end -/

theorem execRet_of_empty {s : State} (h : s.sp.val = 0) :
    exec .ret s = raiseFault .stackUnderflow .ret 0 s := dif_pos h

theorem execRet_of_nonempty {s : State} (h : 0 < s.sp.val) :
    exec .ret s =
      .next { s with pc := s.stack[s.sp.val - 1], sp := ⟨s.sp.val - 1, by omega⟩ } :=
  dif_neg (Nat.ne_of_gt h)

theorem execCall_of_room {nnn : Addr} {s : State} (h : s.sp.val < 16) :
    exec (.call nnn) s =
      .next { s with
        pc := zextAddr nnn
        stack := s.stack.set s.sp.val s.pc
        sp := ⟨s.sp.val + 1, by omega⟩ } := dif_pos h

theorem execCall_of_full {nnn : Addr} {s : State} (h : 16 ≤ s.sp.val) :
    exec (.call nnn) s = raiseFault .stackOverflow (.call nnn) 0 s := dif_neg (Nat.not_lt.2 h)

theorem finishCycle_of_fault {t : State} (h : t.fault.isSome) :
    finishCycle (.next t) = .next t := if_pos h

theorem finishCycle_of_no_fault {t : State} (h : ¬t.fault.isSome) :
    finishCycle (.next t) = .next (timerTick { t with phase := .running }) := if_neg h

/-! ## The key flags in a cycle (R33)

No cycle writes the flags, by the frames. That no other instruction reads them is said as commuting
equations: replacing the flags before each part of a cycle is replacing them after it. -/

/-- `s` with other key flags. -/
def withKeys (key : Vector Bool 16) (s : State) : State := { s with key := key }

/-- An outcome with its next state, if it has one, replaced. -/
def mapNext (f : State → State) : Host.Outcome State Fault Refusal → Host.Outcome State Fault Refusal
  | .next t => .next (f t)
  | .fault r => .fault r
  | .refused r => .refused r

@[simp] theorem mapNext_next (f : State → State) (t : State) : mapNext f (.next t) = .next (f t) := rfl

section
variable (key : Vector Bool 16)

theorem skipIf_withKeys (c : Bool) (s : State) :
    skipIf c (withKeys key s) = withKeys key (skipIf c s) := by
  cases c <;> rfl

theorem timerTick_withKeys (s : State) :
    timerTick (withKeys key s) = withKeys key (timerTick s) := by
  by_cases h : s.st = 0#8 <;> simp [timerTick, withKeys, h, emit]

theorem storeAtI_withKeys (i : Instr) (bs : List Byte) (s : State) :
    storeAtI i bs (withKeys key s) = mapNext (withKeys key) (storeAtI i bs s) := by
  cases e : writeRange s.mem s.i.toNat bs <;> simp only [storeAtI, withKeys, e] <;> rfl

/-- An instruction that is none of EX9E, EXA1 and FX0A does not read the flags. -/
theorem exec_withKeys {i : Instr} (s : State)
    (h : ∀ x, i ≠ .skp x ∧ i ≠ .sknp x ∧ i ≠ .ldVxK x) :
    exec i (withKeys key s) = mapNext (withKeys key) (exec i s) := by
  cases i with
  | skp x => exact absurd rfl (h x).1
  | sknp x => exact absurd rfl (h x).2.1
  | ldVxK x => exact absurd rfl (h x).2.2
  | seByte x nn => exact congrArg _ (skipIf_withKeys key _ s)
  | sneByte x nn => exact congrArg _ (skipIf_withKeys key _ s)
  | seReg x y n => exact congrArg _ (skipIf_withKeys key _ s)
  | sneReg x y n => exact congrArg _ (skipIf_withKeys key _ s)
  | ldB x => exact storeAtI_withKeys key _ _ s
  | stRegs x => exact storeAtI_withKeys key _ _ s
  | ret =>
    rcases Nat.eq_zero_or_pos s.sp.val with e | e
    · rw [execRet_of_empty e, execRet_of_empty (s := withKeys key s) e]; rfl
    · rw [execRet_of_nonempty e, execRet_of_nonempty (s := withKeys key s) e]; rfl
  | call nnn =>
    rcases Nat.lt_or_ge s.sp.val 16 with e | e
    · rw [execCall_of_room e, execCall_of_room (s := withKeys key s) e]; rfl
    · rw [execCall_of_full e, execCall_of_full (s := withKeys key s) e]; rfl
  | drw x y n =>
    cases e : readRange s.mem s.i.toNat n.val <;> simp only [exec, execDrw, withKeys, e] <;> rfl
  | ldRegs x =>
    cases e : readRange s.mem s.i.toNat (regCount x) <;>
      simp only [exec, execLdRegs, withKeys, e] <;> rfl
  | _ => rfl

theorem finishCycle_withKeys (o : Host.Outcome State Fault Refusal) :
    finishCycle (mapNext (withKeys key) o) = mapNext (withKeys key) (finishCycle o) := by
  cases o with
  | next t =>
    by_cases e : t.fault.isSome
    · rw [finishCycle_of_fault e, mapNext_next, finishCycle_of_fault (t := withKeys key t) e]
    · rw [finishCycle_of_no_fault e, mapNext_next, finishCycle_of_no_fault (t := withKeys key t) e,
        mapNext_next, ← timerTick_withKeys]
      rfl
  | fault r => rfl
  | refused r => rfl

/-- Neither the fetch nor the diagnostic of an unknown opcode reads the flags, so a cycle reads them
only where its instruction does. -/
theorem runCycle_withKeys {s : State}
    (h : ∀ x, decode s.wordAtPc ≠ .ok (.skp x) ∧ decode s.wordAtPc ≠ .ok (.sknp x) ∧
      decode s.wordAtPc ≠ .ok (.ldVxK x)) :
    runCycle (withKeys key s) = mapNext (withKeys key) (runCycle s) := by
  rcases Nat.lt_or_ge 0xFFE s.pc.toNat with far | near
  · rw [runCycle_far far, runCycle_far (s := withKeys key s) far]; rfl
  have opcode : executeOpcode s.wordAtPc (advancePc (withKeys key s)) =
      mapNext (withKeys key) (executeOpcode s.wordAtPc (advancePc s)) := by
    unfold executeOpcode
    cases dec : decode s.wordAtPc with
    | error e => rfl
    | ok i =>
      refine exec_withKeys key (advancePc s) fun x => ?_
      simpa [dec] using h x
  have fetched : fetch (withKeys key s) = .ok s.wordAtPc := fetch_ok (s := withKeys key s) near
  simp only [runCycle, fetched, fetch_ok near, opcode, finishCycle_withKeys]

end

/-- No execute phase writes the flags: they are in no part a frame names, and a fault leaves them. -/
theorem step_key {s t : State} (h : step s = .next t) : t.key = s.key := by
  cases ends_of_step h with
  | fetchFaulted _ eq => subst eq; rfl
  | unknown _ _ _ eq => subst eq; simp
  | faulted _ _ _ _ _ _ eq => subst eq; rfl
  | completed _ _ _ _ _ frame eq => subst eq; rw [timerTick_key]; exact frame.key

theorem step_withKeys {s t : State} (key : Vector Bool 16) (run : step s = .next t)
    (h : ∀ x, decode s.wordAtPc ≠ .ok (.skp x) ∧ decode s.wordAtPc ≠ .ok (.sknp x) ∧
      decode s.wordAtPc ≠ .ok (.ldVxK x)) :
    step (withKeys key s) = .next (withKeys key t) := by
  have hr : s.runnable := runnable_of_step run
  rw [step_of_runnable (s := withKeys key s) hr, runCycle_withKeys key h, ← step_of_runnable hr, run,
    mapNext_next]

/-! ## The key flags and the host (R33, R39) -/

theorem admitted_of_hostCall {c : HostCall} {s : State} {p : State × Response}
    (h : hostCall c s = .next p) : admitted c.op s.phase = true := by
  by_contra na
  rw [hostCall_notAdmitted (Bool.eq_false_iff.2 na)] at h
  cases h

/-- What a `runCycle` of the host leaves is what a step leaves. -/
theorem step_of_hostCall {s t : State} {r : Response} (h : hostCall .runCycle s = .next (t, r)) :
    step s = .next t := by
  rw [hostCall, if_pos (admitted_of_hostCall h)] at h
  cases e : step s with
  | next u => simp only [e] at h; cases h; rfl
  | fault f => simp only [e] at h; cases h
  | refused f => simp only [e] at h; cases h

theorem loadProgram_key (rom : RomSource) (s : State) : (loadProgram rom s).1.key = s.key := by
  rcases loadProgram_cases rom s with ⟨_, _, _, e⟩ | ⟨_, e⟩ <;> rw [e]

/-- A call that is neither `setKey` nor `init` leaves the flags. -/
theorem hostCall_key {c : HostCall} {s t : State} {r : Response} (h : hostCall c s = .next (t, r)) :
    t.key = s.key ∨ (∃ index pressed, c = .setKey index pressed) ∨ c = .init := by
  have adm := admitted_of_hostCall h
  cases c with
  | init => exact .inr (.inr rfl)
  | setKey index pressed => exact .inr (.inl ⟨index, pressed, rfl⟩)
  | runCycle => exact .inl (step_key (step_of_hostCall h))
  | loadProgram rom =>
    rw [hostCall, if_pos adm] at h
    have key := loadProgram_key rom s
    rw [Host.Outcome.next.inj h] at key
    exact .inl key
  | getDisplay => rw [hostCall, if_pos adm] at h; cases h; exact .inl rfl
  | getKeys => rw [hostCall, if_pos adm] at h; cases h; exact .inl rfl
  | readFault => rw [hostCall, if_pos adm] at h; cases h; exact .inl rfl

/-- Settles O42, from what a step, a cycle under other flags and a host call do. -/
theorem onlyHostWritesKeys : Obligations.OnlyHostWritesKeys :=
  ⟨by decide, fun _ _ => step_key, fun _ _ key' => step_withKeys key',
    fun _ _ _ _ h changed => (hostCall_key h).resolve_left changed⟩

end Machine
end Sys2Proof

namespace Sys2Proof
namespace Machine

/-! ## Routing within a family (R105 to R107)

Families 0x8, 0xE and 0xF each look the field they route on up in a table of instructions. -/

/-- What a routing table gives the opcode whose routed field is `k`. -/
def routed (table : List (Nat × Instr)) (k : Nat) (op : Word) : Except Rejection Instr :=
  (table.lookup k).elim (.error (.unknownOpcode op)) .ok

/-- The table of family 0x8, by N (R105). -/
def family8Table (x y : RegIdx) : List (Nat × Instr) :=
  [(0, .ldReg x y), (1, .orReg x y), (2, .andReg x y), (3, .xorReg x y), (4, .addReg x y),
    (5, .subReg x y), (6, .shr x y), (7, .subn x y), (0xE, .shl x y)]

/-- The table of family 0xE, by NN (R106). -/
def familyETable (x : RegIdx) : List (Nat × Instr) := [(0x9E, .skp x), (0xA1, .sknp x)]

/-- The table of family 0xF, by NN (R107). -/
def familyFTable (x : RegIdx) : List (Nat × Instr) :=
  [(0x07, .ldVxDT x), (0x0A, .ldVxK x), (0x15, .ldDTVx x), (0x18, .ldSTVx x), (0x1E, .addI x),
    (0x29, .ldF x), (0x33, .ldB x), (0x55, .stRegs x), (0x65, .ldRegs x)]

/-- A field value no entry lists is an unknown opcode. -/
theorem routed_of_unlisted {table : List (Nat × Instr)} {k : Nat} (op : Word)
    (h : ∀ entry ∈ table, k ≠ entry.1) : routed table k op = .error (.unknownOpcode op) := by
  have unlisted : table.lookup k = none :=
    List.lookup_eq_none_iff.2 fun entry mem => bne_iff_ne.2 (h entry mem)
  rw [routed, unlisted]
  rfl

/-! Each family's decoder is a lookup in its table: in the default arm (the last case of the split)
no entry lists the value, and each other arm is the table's entry. -/

theorem decodeFamily8_eq_routed (op : Word) :
    decodeFamily8 op = routed (family8Table (opX op) (opY op)) (opN op).toNat op := by
  unfold decodeFamily8
  generalize (opN op).toNat = k
  split
  case h_10 => exact (routed_of_unlisted op (by simp_all [family8Table])).symm
  all_goals rfl

theorem decodeFamilyE_eq_routed (op : Word) :
    decodeFamilyE op = routed (familyETable (opX op)) (opNN op).toNat op := by
  unfold decodeFamilyE
  generalize (opNN op).toNat = k
  split
  case h_3 => exact (routed_of_unlisted op (by simp_all [familyETable])).symm
  all_goals rfl

theorem decodeFamilyF_eq_routed (op : Word) :
    decodeFamilyF op = routed (familyFTable (opX op)) (opNN op).toNat op := by
  unfold decodeFamilyF
  generalize (opNN op).toNat = k
  split
  case h_10 => exact (routed_of_unlisted op (by simp_all [familyFTable])).symm
  all_goals rfl

/-! The same on the words the statement writes out. -/

theorem decode_wordXYN_8 (x y : RegIdx) (n : Fin 16) :
    decode (wordXYN 8 x y n.val) = routed (family8Table x y) n.val (wordXYN 8 x y n.val) := by
  have word : wordXYN 8 x y n.val = regRegForm 8#4 x y (nib n) :=
    wordXYN_eq_regRegForm 8#4 x y (nib n)
  simp [word, decode, decodeFamily8_eq_routed]

theorem decode_wordXNN_E (x : RegIdx) (nn : Byte) :
    decode (wordXNN 0xE x nn) = routed (familyETable x) nn.toNat (wordXNN 0xE x nn) := by
  have word : wordXNN 0xE x nn = regByteForm 0xE#4 x nn := wordXNN_eq_regByteForm 0xE#4 x nn
  simp [word, decode, decodeFamilyE_eq_routed]

theorem decode_wordXNN_F (x : RegIdx) (nn : Byte) :
    decode (wordXNN 0xF x nn) = routed (familyFTable x) nn.toNat (wordXNN 0xF x nn) := by
  have word : wordXNN 0xF x nn = regByteForm 0xF#4 x nn := wordXNN_eq_regByteForm 0xF#4 x nn
  simp [word, decode, decodeFamilyF_eq_routed]

/-- Settles O4: the tables are the statement's, and each family's decoder routes by its own. -/
theorem subFamiliesRouteAsListed : Obligations.SubFamiliesRouteAsListed :=
  ⟨decode_wordXYN_8, decode_wordXNN_E, decode_wordXNN_F⟩

end Machine
end Sys2Proof

namespace Sys2Proof
namespace Machine

/-! ## 1NNN (R123) -/

theorem decode_wordNNN_jp (nnn : Addr) : decode (wordNNN 1 nnn) = .ok (.jp nnn) := by
  rw [show wordNNN 1 nnn = addrForm 1#4 nnn from wordNNN_eq_addrForm 1#4 nnn]
  exact (Laws.EncodingRoundTrip.addr_decodes nnn).1

theorem exec_jp (nnn : Addr) (s : State) : exec (.jp nnn) s = .next (setPc (zextAddr nnn) s) := rfl

theorem completes_jp (nnn : Addr) (s : State) :
    Completes (.jp nnn) s [.pc] fun t => t.pc.toNat = nnn.toNat :=
  ⟨_, exec_jp nnn s, zextAddr_toNat nnn, setPc_frame _ s⟩

theorem run_succ_of_step {s u : State} (h : step s = .next u) (k : Nat) :
    core.run (k + 1) s = core.run k u := by
  have one : core.step s = .next u := h
  simp only [Host.Core.run, one]

/-- An invariant under which a step is taken, and which that step keeps, holds after any number of
steps: such a run never stops. -/
theorem run_of_step_keeps {P : State → Prop} (keeps : ∀ s, P s → ∃ t, step s = .next t ∧ P t)
    (k : Nat) {s : State} (h : P s) : ∃ t, core.run k s = .next t ∧ P t := by
  induction k generalizing s with
  | zero => exact ⟨s, rfl, h⟩
  | succ k ih =>
    obtain ⟨u, one, hu⟩ := keeps s h
    rw [run_succ_of_step one]
    exact ih hu

/-- `s` is at NNN and its next cycle fetches 1NNN: the jump to its own address. -/
def AtSelfJump (nnn : Addr) (s : State) : Prop :=
  s.pc = zextAddr nnn ∧ s.fetches (wordNNN 1 nnn)

/-- What the next cycle fetches rests on PC, memory and the fault record, in a running core. -/
theorem fetches_of_same {s t : State} {op : Word} (h : s.fetches op) (phase : t.phase = .running)
    (fault : t.fault = s.fault) (pc : t.pc = s.pc) (mem : t.mem = s.mem) : t.fetches op := by
  obtain ⟨runnable, near, word⟩ := h
  refine ⟨⟨.inr phase, fault.trans runnable.2⟩, pc ▸ near, ?_⟩
  rwa [State.wordAtPc, pc, mem]

/-- A cycle of the self-jump completes and leaves all that its fetch rests on as it was. -/
theorem step_keeps_atSelfJump {nnn : Addr} (s : State) (h : AtSelfJump nnn s) :
    ∃ t, step s = .next t ∧ AtSelfJump nnn t := by
  obtain ⟨atNNN, fetches⟩ := h
  have executes : s.executes (.jp nnn) :=
    ⟨fetches.1, fetches.2.1, fetches.2.2 ▸ decode_wordNNN_jp nnn⟩
  refine ⟨_, step_completed executes (exec_jp nnn (advancePc s)) rfl, by simp, ?_⟩
  exact fetches_of_same fetches (by simp) (by simp) (by simp [atNNN]) (by simp)

/-- Settles O17: the execute phase of 1NNN sets PC only, and `AtSelfJump` is kept by every step. -/
theorem jumpGoesToItsAddress : Obligations.JumpGoesToItsAddress := by
  refine ⟨fun nnn s => ⟨decode_wordNNN_jp nnn, completes_jp nnn s⟩, fun k nnn s fetches atNNN => ?_⟩
  have atPc : s.pc = zextAddr nnn := BitVec.eq_of_toNat_eq (atNNN.trans (zextAddr_toNat nnn).symm)
  obtain ⟨t, run, same, again⟩ := run_of_step_keeps step_keeps_atSelfJump k ⟨atPc, fetches⟩
  exact ⟨t, run, same.trans atPc.symm, again⟩

/-! ## 3XNN and 4XNN (R125, R126) -/

theorem decode_wordXNN_seByte (x : RegIdx) (nn : Byte) :
    decode (wordXNN 3 x nn) = .ok (.seByte x nn) := by
  rw [show wordXNN 3 x nn = regByteForm 3#4 x nn from wordXNN_eq_regByteForm 3#4 x nn]
  exact (Laws.EncodingRoundTrip.regByte_decodes x nn).1

theorem decode_wordXNN_sneByte (x : RegIdx) (nn : Byte) :
    decode (wordXNN 4 x nn) = .ok (.sneByte x nn) := by
  rw [show wordXNN 4 x nn = regByteForm 4#4 x nn from wordXNN_eq_regByteForm 4#4 x nn]
  exact (Laws.EncodingRoundTrip.regByte_decodes x nn).2.1

theorem exec_seByte (x : RegIdx) (nn : Byte) (s : State) :
    exec (.seByte x nn) s = .next (skipIf (s.v[x] == nn) s) := rfl

theorem exec_sneByte (x : RegIdx) (nn : Byte) (s : State) :
    exec (.sneByte x nn) s = .next (skipIf (s.v[x] != nn) s) := rfl

/-- An instruction that is a skip on the condition `c` changes PC only, and takes it to `target`. -/
theorem completes_of_skipIf {i : Instr} {s : State} {c : Bool} {target : Word}
    (run : exec i s = .next (skipIf c s)) (skips : (if c then s.pc + 2 else s.pc) = target) :
    Completes i s [.pc] fun t => t.pc = target :=
  ⟨_, run, (skipIf_pc c s).trans skips, skipIf_frame c s⟩

/-- Settles O22: both instructions are a skip, on V[X] = NN and on V[X] ≠ NN. -/
theorem skipOnByteComparison : Obligations.SkipOnByteComparison := by
  refine fun x nn s => ⟨decode_wordXNN_seByte x nn, decode_wordXNN_sneByte x nn, ?_, ?_⟩
  · exact completes_of_skipIf (exec_seByte x nn s) (by simp only [beq_iff_eq])
  · exact completes_of_skipIf (exec_sneByte x nn s) (by simp only [bne_iff_ne, ite_not])

end Machine
end Sys2Proof

namespace Sys2Proof
namespace Machine

/-! ## The arithmetic of the ALU as numbers (R147 to R151) -/

theorem carryFlag_toNat (a b : Byte) :
    (carryFlag a b).toNat = if a.toNat + b.toNat > 255 then 1 else 0 := by
  simp only [carryFlag, flagByte_toNat, decide_eq_true_eq]

theorem noBorrowFlag_toNat (minuend subtrahend : Byte) :
    (noBorrowFlag minuend subtrahend).toNat =
      if minuend.toNat > subtrahend.toNat then 1 else 0 := by
  simp only [noBorrowFlag, flagByte_toNat, decide_eq_true_eq]

/-- A bit of a byte, as the byte VF holds, is that binary digit of its number. -/
theorem flagByte_getLsbD_toNat (a : Byte) (k : Nat) :
    (flagByte (a.getLsbD k)).toNat = a.toNat / 2 ^ k % 2 := by
  rw [flagByte_toNat, BitVec.getLsbD, Nat.testBit_eq_decide_div_mod_eq]
  rcases Nat.mod_two_eq_zero_or_one (a.toNat / 2 ^ k) with digit | digit <;> simp [digit]

theorem lowBitFlag_toNat (a : Byte) : (lowBitFlag a).toNat = a.toNat % 2 := by
  rw [lowBitFlag, flagByte_getLsbD_toNat, pow_zero, Nat.div_one]

theorem highBitFlag_toNat (a : Byte) : (highBitFlag a).toNat = a.toNat / 128 := by
  have := a.isLt
  rw [highBitFlag, flagByte_getLsbD_toNat]; omega

/-- The difference modulo 256, with the 256 that keeps it a natural number written first. -/
theorem byte_sub_toNat (a b : Byte) : (a - b).toNat = (256 + a.toNat - b.toNat) % 256 := by
  have := b.isLt
  rw [BitVec.toNat_sub]; omega

theorem byte_half_toNat (a : Byte) : (a >>> 1).toNat = a.toNat / 2 := by
  rw [BitVec.toNat_ushiftRight, Nat.shiftRight_eq_div_pow, pow_one]

theorem byte_double_toNat (a : Byte) : (a <<< 1).toNat = a.toNat * 2 % 256 := by
  rw [BitVec.toNat_shiftLeft, Nat.shiftLeft_eq, pow_one]

/-! ## Register writes as effects (R23, R140) -/

/-- An instruction that only writes V[X] completes, and nothing else changes. -/
theorem completes_of_setReg {i : Instr} {s : State} {x : RegIdx} {b : Byte}
    (run : exec i s = .next (setReg x b s)) : Completes i s [.reg x] fun t => t.v[x] = b :=
  ⟨_, run, setReg_v_self x b s, setReg_frame x b s⟩

/-- An instruction that writes a result and then the flag completes with both, but for the result
when V[X] is VF. -/
theorem completes_of_setRegThenFlag {i : Instr} {s : State} {x : RegIdx} {result flag : Byte}
    {r f : Nat} (run : exec i s = .next (setRegThenFlag x result flag s))
    (result_eq : result.toNat = r) (flag_eq : flag.toNat = f) :
    Completes i s [.reg x, .reg vf] fun t =>
      (x ≠ vf → t.v[x].toNat = r) ∧ t.v[vf].toNat = f := by
  refine ⟨_, run, ⟨fun notFlag => ?_, ?_⟩, setRegThenFlag_frame x result flag s⟩
  · rw [setRegThenFlag_result x result flag s notFlag, result_eq]
  · rw [setRegThenFlag_vf, flag_eq]

/-! ## 8XY4 to 8XY7 and 8XYE (R147 to R151) -/

/-- What the table of family 0x8 lists under N is what the word 8XYN decodes to. -/
theorem decode_wordXYN_8_of_listed {x y : RegIdx} {n : Fin 16} {i : Instr}
    (listed : (family8Table x y).lookup n.val = some i) : decode (wordXYN 8 x y n.val) = .ok i := by
  rw [decode_wordXYN_8, routed, listed]
  rfl

theorem decode_wordXYN_addReg (x y : RegIdx) : decode (wordXYN 8 x y 4) = .ok (.addReg x y) :=
  decode_wordXYN_8_of_listed (n := 4) rfl

theorem decode_wordXYN_subReg (x y : RegIdx) : decode (wordXYN 8 x y 5) = .ok (.subReg x y) :=
  decode_wordXYN_8_of_listed (n := 5) rfl

theorem decode_wordXYN_shr (x y : RegIdx) : decode (wordXYN 8 x y 6) = .ok (.shr x y) :=
  decode_wordXYN_8_of_listed (n := 6) rfl

theorem decode_wordXYN_subn (x y : RegIdx) : decode (wordXYN 8 x y 7) = .ok (.subn x y) :=
  decode_wordXYN_8_of_listed (n := 7) rfl

theorem decode_wordXYN_shl (x y : RegIdx) : decode (wordXYN 8 x y 0xE) = .ok (.shl x y) :=
  decode_wordXYN_8_of_listed (n := 0xE) rfl

theorem exec_addReg (x y : RegIdx) (s : State) : exec (.addReg x y) s =
    .next (setRegThenFlag x (s.v[x] + s.v[y]) (carryFlag s.v[x] s.v[y]) s) := rfl

theorem exec_subReg (x y : RegIdx) (s : State) : exec (.subReg x y) s =
    .next (setRegThenFlag x (s.v[x] - s.v[y]) (noBorrowFlag s.v[x] s.v[y]) s) := rfl

theorem exec_subn (x y : RegIdx) (s : State) : exec (.subn x y) s =
    .next (setRegThenFlag x (s.v[y] - s.v[x]) (noBorrowFlag s.v[y] s.v[x]) s) := rfl

theorem exec_shr (x y : RegIdx) (s : State) : exec (.shr x y) s =
    .next (setRegThenFlag x (s.v[x] >>> 1) (lowBitFlag s.v[x]) s) := rfl

theorem exec_shl (x y : RegIdx) (s : State) : exec (.shl x y) s =
    .next (setRegThenFlag x (s.v[x] <<< 1) (highBitFlag s.v[x]) s) := rfl

/-- Settles O29: 8XY4 writes the sum, then the carry. -/
theorem addSetsCarry : Obligations.AddSetsCarry := fun x y s =>
  ⟨decode_wordXYN_addReg x y, completes_of_setRegThenFlag (exec_addReg x y s)
    (BitVec.toNat_add s.v[x] s.v[y]) (carryFlag_toNat s.v[x] s.v[y])⟩

/-- Settles O30: 8XY5 and 8XY7 write the difference, then the strict comparison of the same two
bytes. -/
theorem subtractSetsStrictFlag : Obligations.SubtractSetsStrictFlag := by
  refine fun x y s => ⟨decode_wordXYN_subReg x y, decode_wordXYN_subn x y, ?_, ?_⟩
  · exact completes_of_setRegThenFlag (exec_subReg x y s) (byte_sub_toNat s.v[x] s.v[y])
      (noBorrowFlag_toNat s.v[x] s.v[y])
  · exact completes_of_setRegThenFlag (exec_subn x y s) (byte_sub_toNat s.v[y] s.v[x])
      (noBorrowFlag_toNat s.v[y] s.v[x])

/-- Settles O31: 8XY6 and 8XYE write the half and the double, then the digit that is shifted out. -/
theorem shiftsReportTheBitOut : Obligations.ShiftsReportTheBitOut := by
  refine fun x y s => ⟨decode_wordXYN_shr x y, decode_wordXYN_shl x y, ?_, ?_⟩
  · exact completes_of_setRegThenFlag (exec_shr x y s) (byte_half_toNat s.v[x])
      (lowBitFlag_toNat s.v[x])
  · exact completes_of_setRegThenFlag (exec_shl x y s) (byte_double_toNat s.v[x])
      (highBitFlag_toNat s.v[x])

/-! ## 6XNN and 7XNN (R141, R142) -/

theorem decode_wordXNN_ldByte (x : RegIdx) (nn : Byte) :
    decode (wordXNN 6 x nn) = .ok (.ldByte x nn) := by
  rw [show wordXNN 6 x nn = encode (.ldByte x nn) from wordXNN_eq_regByteForm 6#4 x nn]
  exact Laws.EncodingRoundTrip.ldByte x nn rfl

theorem decode_wordXNN_addByte (x : RegIdx) (nn : Byte) :
    decode (wordXNN 7 x nn) = .ok (.addByte x nn) := by
  rw [show wordXNN 7 x nn = encode (.addByte x nn) from wordXNN_eq_regByteForm 7#4 x nn]
  exact Laws.EncodingRoundTrip.addByte x nn rfl

theorem exec_ldByte (x : RegIdx) (nn : Byte) (s : State) :
    exec (.ldByte x nn) s = .next (setReg x nn s) := rfl

theorem exec_addByte (x : RegIdx) (nn : Byte) (s : State) :
    exec (.addByte x nn) s = .next (setReg x (s.v[x] + nn) s) := rfl

/-- Settles O26: 6XNN is one register write. -/
theorem loadByteSetsRegister : Obligations.LoadByteSetsRegister := fun x nn s =>
  ⟨decode_wordXNN_ldByte x nn, completes_of_setReg (exec_ldByte x nn s)⟩

/-- Settles O27: 7XNN is one register write too, of the sum modulo 256. -/
theorem addByteWrapsWithoutFlag : Obligations.AddByteWrapsWithoutFlag := by
  refine fun x nn s => ⟨decode_wordXNN_addByte x nn, ?_⟩
  obtain ⟨t, run, sum, frame⟩ := completes_of_setReg (exec_addByte x nn s)
  exact ⟨t, run, (congrArg BitVec.toNat sum).trans (BitVec.toNat_add s.v[x] nn), frame⟩

end Machine
end Sys2Proof

namespace Sys2Proof
namespace Machine

/-! ## The effect of a draw, and of a clear, on the display (R165 to R170) -/

theorem setDisplay_frame (d : Display) (s : State) : Frame [.display] s { s with disp := d } := by
  constructor <;> simp_all

/-- The display DXYN leaves and whether it turned an on cell off, from the state it starts in. -/
def drawnSprite (s : State) (x y : RegIdx) (n : Fin 16) : Canvas :=
  drawRows (s.v[x].toNat % 64) (s.v[y].toNat % 32) 0 (spriteRows s n) (s.disp, false)

/-- With its sprite in memory, DXYN takes no fault. -/
theorem exec_drw_of_inMemory {x y : RegIdx} {n : Fin 16} {s : State} (h : spriteInMemory s n) :
    exec (.drw x y n) s = .next (setReg vf (collisionFlag (drawnSprite s x y n).2)
      { s with disp := (drawnSprite s x y n).1 }) := by
  rcases execDrw_cases x y n s with ⟨_, c, rfl, run⟩ | ⟨rows, far, _⟩
  · exact run
  · unfold spriteInMemory at h
    omega

theorem drawnSprite_cell (s : State) (x y : RegIdx) (n : Fin 16) (cx : Col) (cy : Row) :
    (drawnSprite s x y n).1[cx][cy] = (s.disp[cx][cy] ^^
      rowsCover (s.v[x].toNat % 64) (s.v[y].toNat % 32) 0 (spriteRows s n) cx cy) :=
  drawRows_cell _ _ 0 _ _ (spriteRows_length s n) cx cy

theorem spriteX_inj {s : State} {x : RegIdx} {b b' : Nat} (h : b < 8) (h' : b' < 8)
    (same : spriteX s x b = spriteX s x b') : b = b' :=
  spriteCol_inj (s.v[x].toNat % 64) (by omega) (by omega) same

theorem spriteY_inj {s : State} {y : RegIdx} {n : Fin 16} {r r' : Nat} (h : r < n.val)
    (h' : r' < n.val) (same : spriteY s y r = spriteY s y r') : r = r' :=
  spriteRow_inj (s.v[y].toNat % 32) (by omega) (by omega) same

/-- No two sprite bits land on one cell, so a cell under the sprite is inverted by its own bit. -/
theorem drawnSprite_under (s : State) (x y : RegIdx) {n : Fin 16} {r b : Nat} (hr : r < n.val)
    (hb : b < 8) : (drawnSprite s x y n).1[spriteX s x b][spriteY s y r] =
      (s.disp[spriteX s x b][spriteY s y r] ^^ spriteBit s r b) := by
  rw [drawnSprite_cell]
  congr 1
  rw [Bool.eq_iff_iff, rowsCover_sprite]
  constructor
  · rintro ⟨r', b', hr', hb', bit, sameCol, sameRow⟩
    rwa [spriteX_inj hb hb' sameCol, spriteY_inj hr hr' sameRow]
  · exact fun bit => ⟨r, b, hr, hb, bit, rfl, rfl⟩

/-- A cell the sprite does not reach is left alone. -/
theorem drawnSprite_outside (s : State) (x y : RegIdx) {n : Fin 16} {cx : Col} {cy : Row}
    (outside : ∀ r b : Nat, r < n.val → b < 8 → ¬(cx = spriteX s x b ∧ cy = spriteY s y r)) :
    (drawnSprite s x y n).1[cx][cy] = s.disp[cx][cy] := by
  have uncovered :
      rowsCover (s.v[x].toNat % 64) (s.v[y].toNat % 32) 0 (spriteRows s n) cx cy = false := by
    rw [Bool.eq_false_iff, ne_eq, rowsCover_sprite]
    rintro ⟨r, b, hr, hb, _, atCell⟩
    exact outside r b hr hb atCell
  rw [drawnSprite_cell, uncovered, Bool.xor_false]

theorem decode_wordXYN_drw (x y : RegIdx) (n : Fin 16) :
    decode (wordXYN 0xD x y n.val) = .ok (.drw x y n) := by
  rw [wordXYN_drw]
  exact Laws.EncodingRoundTrip.drw x y n rfl

/-- Settles O34: the draw is `drawnSprite`, whose cells under the sprite and outside it the two
lemmas before give. -/
theorem drawInvertsTheWrappedSprite : Obligations.DrawInvertsTheWrappedSprite := by
  refine fun x y n s => ⟨decode_wordXYN_drw x y n, fun inMemory => ?_⟩
  refine ⟨_, exec_drw_of_inMemory inMemory, ⟨fun r b => ?_, fun cx cy => ?_⟩, ?_⟩
  · exact drawnSprite_under s x y
  · exact drawnSprite_outside s x y
  · exact (setDisplay_frame _ s).trans (setReg_frame vf _ _)

theorem exec_cls (s : State) : exec .cls s = .next { s with disp := Display.allOff } := rfl

/-- Settles O33: 00E0 replaces the display by the one with every cell off. -/
theorem clearTurnsEveryCellOff : Obligations.ClearTurnsEveryCellOff := fun s =>
  ⟨Laws.EncodingRoundTrip.cls rfl, _, exec_cls s, allOff_cell, setDisplay_frame Display.allOff s⟩

end Machine
end Sys2Proof

namespace Sys2Proof
namespace Machine

/-! ## FX07 (R183) -/

theorem decode_wordXNN_ldVxDT (x : RegIdx) : decode (wordXNN 0xF x 0x07) = .ok (.ldVxDT x) :=
  decode_wordXNN_F x 0x07

theorem exec_ldVxDT (x : RegIdx) (s : State) : exec (.ldVxDT x) s = .next (setReg x s.dt s) := rfl

/-- A cycle of FX07 is the copy, then the tick. -/
theorem step_ldVxDT {x : RegIdx} {s : State} (h : s.executes (.ldVxDT x)) :
    step s = .next (timerTick { setReg x s.dt (advancePc s) with phase := .running }) :=
  step_completed h (exec_ldVxDT x (advancePc s)) rfl

/-- Settles O39: the execute phase is one register write, and the tick that follows it leaves the
registers and counts DT down. -/
theorem readDelayTimer : Obligations.ReadDelayTimer := by
  refine fun x s => ⟨decode_wordXNN_ldVxDT x, completes_of_setReg (exec_ldVxDT x s), fun h => ?_⟩
  refine ⟨_, step_ldVxDT h, ?_, ?_⟩
  · rw [timerTick_v]
    exact setReg_v_self x s.dt (advancePc s)
  · rw [timerTick_dt]
    exact countDown_toNat s.dt

end Machine
end Sys2Proof

namespace Sys2Proof
namespace Machine

/-! ## FX1E and FX29 (R201, R202) -/

theorem decode_wordXNN_addI (x : RegIdx) : decode (wordXNN 0xF x 0x1E) = .ok (.addI x) :=
  decode_wordXNN_F x 0x1E

theorem decode_wordXNN_ldF (x : RegIdx) : decode (wordXNN 0xF x 0x29) = .ok (.ldF x) :=
  decode_wordXNN_F x 0x29

theorem exec_addI (x : RegIdx) (s : State) :
    exec (.addI x) s = .next (setI (s.i + zextByte s.v[x]) s) := rfl

theorem exec_ldF (x : RegIdx) (s : State) :
    exec (.ldF x) s = .next (setI (glyphAddr s.v[x]) s) := rfl

/-- I and a byte added as words, which wrap. -/
theorem add_zextByte_toNat (w : Word) (b : Byte) :
    (w + zextByte b).toNat = (w.toNat + b.toNat) % 65536 := by
  rw [BitVec.toNat_add, zextByte_toNat]

/-- An instruction that only writes I completes, and nothing else changes. -/
theorem completes_of_setI {i : Instr} {s : State} {w : Word} {n : Nat}
    (run : exec i s = .next (setI w s)) (value : w.toNat = n) :
    Completes i s [.index] fun t => t.i.toNat = n :=
  ⟨_, run, value, setI_frame w s⟩

/-- Settles O45: both instructions write I only, the one the wrapped sum and the other the address
of the glyph. -/
theorem indexArithmetic : Obligations.IndexArithmetic := by
  refine fun x s => ⟨decode_wordXNN_addI x, decode_wordXNN_ldF x, ?_, ?_⟩
  · exact completes_of_setI (exec_addI x s) (add_zextByte_toNat s.i s.v[x])
  · exact completes_of_setI (exec_ldF x s) (glyphAddr_toNat s.v[x])

end Machine
end Sys2Proof

namespace Sys2Proof
namespace Machine

/-! ## Encode and decode are inverse (R61, R80, R81, R84) -/

/-- Every instruction's own round trip, put together. -/
theorem decode_encode (i : Instr) : Laws.EncodingRoundTrip.Statement i := by
  cases i with
  | cls => exact Laws.EncodingRoundTrip.cls
  | ret => exact Laws.EncodingRoundTrip.ret
  | sys nnn => exact Laws.EncodingRoundTrip.sys nnn
  | jp nnn => exact Laws.EncodingRoundTrip.jp nnn
  | call nnn => exact Laws.EncodingRoundTrip.call nnn
  | seByte x nn => exact Laws.EncodingRoundTrip.seByte x nn
  | sneByte x nn => exact Laws.EncodingRoundTrip.sneByte x nn
  | seReg x y n => exact Laws.EncodingRoundTrip.seReg x y n
  | ldByte x nn => exact Laws.EncodingRoundTrip.ldByte x nn
  | addByte x nn => exact Laws.EncodingRoundTrip.addByte x nn
  | ldReg x y => exact Laws.EncodingRoundTrip.ldReg x y
  | orReg x y => exact Laws.EncodingRoundTrip.orReg x y
  | andReg x y => exact Laws.EncodingRoundTrip.andReg x y
  | xorReg x y => exact Laws.EncodingRoundTrip.xorReg x y
  | addReg x y => exact Laws.EncodingRoundTrip.addReg x y
  | subReg x y => exact Laws.EncodingRoundTrip.subReg x y
  | shr x y => exact Laws.EncodingRoundTrip.shr x y
  | subn x y => exact Laws.EncodingRoundTrip.subn x y
  | shl x y => exact Laws.EncodingRoundTrip.shl x y
  | sneReg x y n => exact Laws.EncodingRoundTrip.sneReg x y n
  | ldI nnn => exact Laws.EncodingRoundTrip.ldI nnn
  | jpV0 nnn => exact Laws.EncodingRoundTrip.jpV0 nnn
  | rnd x nn => exact Laws.EncodingRoundTrip.rnd x nn
  | drw x y n => exact Laws.EncodingRoundTrip.drw x y n
  | skp x => exact Laws.EncodingRoundTrip.skp x
  | sknp x => exact Laws.EncodingRoundTrip.sknp x
  | ldVxDT x => exact Laws.EncodingRoundTrip.ldVxDT x
  | ldVxK x => exact Laws.EncodingRoundTrip.ldVxK x
  | ldDTVx x => exact Laws.EncodingRoundTrip.ldDTVx x
  | ldSTVx x => exact Laws.EncodingRoundTrip.ldSTVx x
  | addI x => exact Laws.EncodingRoundTrip.addI x
  | ldF x => exact Laws.EncodingRoundTrip.ldF x
  | ldB x => exact Laws.EncodingRoundTrip.ldB x
  | stRegs x => exact Laws.EncodingRoundTrip.stRegs x
  | ldRegs x => exact Laws.EncodingRoundTrip.ldRegs x

/-- Settles O1: `decode_encode` on the word, and the same on its two bytes in memory order. -/
theorem decodeInvertsEncode : Obligations.DecodeInvertsEncode := by
  intro i rest wf
  refine ⟨decode_encode i wf, ?_⟩
  have bytes : decodeBytes (encodeBytes i ++ rest) = (decode (encode i)).map fun i => (i, rest) :=
    decodeBytes_of_word (encode i) rest
  rw [bytes, decode_encode i wf]
  rfl

/-- What a routing table answers is the entry it lists under the routed field. -/
theorem mem_of_routed {table : List (Nat × Instr)} {k : Nat} {op : Word} {i : Instr}
    (h : routed table k op = .ok i) : (k, i) ∈ table := by
  unfold routed at h
  cases found : table.lookup k with
  | none => rw [found] at h; cases h
  | some j =>
    rw [found] at h; cases h
    obtain ⟨l₁, l₂, split, _⟩ := List.lookup_eq_some_iff.1 found
    simp [split]

/-! Each table lists an instruction under the field its encoding holds. -/

theorem family8Table_encode (x y : RegIdx) : ∀ entry ∈ family8Table x y,
    entry.2.wellFormed = true ∧ encode entry.2 = regRegForm 8#4 x y (BitVec.ofNat 4 entry.1) := by
  simp [family8Table, Instr.wellFormed, encode]

theorem familyETable_encode (x : RegIdx) : ∀ entry ∈ familyETable x,
    entry.2.wellFormed = true ∧ encode entry.2 = regByteForm 0xE#4 x (BitVec.ofNat 8 entry.1) := by
  simp [familyETable, Instr.wellFormed, encode]

theorem familyFTable_encode (x : RegIdx) : ∀ entry ∈ familyFTable x,
    entry.2.wellFormed = true ∧ encode entry.2 = regByteForm 0xF#4 x (BitVec.ofNat 8 entry.1) := by
  simp [familyFTable, Instr.wellFormed, encode]

/-! A word of a known family is the format of its other fields. -/

theorem addrForm_of_family {op : Word} {f : Nibble} (h : (opFamily op).toNat = f.toNat) :
    addrForm f (opNNN op) = op := by
  rw [← BitVec.eq_of_toNat_eq h, addrForm_fields]

theorem regByteForm_of_family {op : Word} {f : Nibble} (h : (opFamily op).toNat = f.toNat) :
    regByteForm f (opX op) (opNN op) = op := by
  rw [← BitVec.eq_of_toNat_eq h, regByteForm_fields]

theorem regRegForm_of_family {op : Word} {f : Nibble} (h : (opFamily op).toNat = f.toNat) :
    regRegForm f (opX op) (opY op) (opN op) = op := by
  rw [← BitVec.eq_of_toNat_eq h, regRegForm_fields]

theorem decodeFamily0_encode {op : Word} (fam : (opFamily op).toNat = 0) :
    (decodeFamily0 op).wellFormed = true ∧ encode (decodeFamily0 op) = op := by
  have word : addrForm 0#4 (opNNN op) = op := addrForm_of_family fam
  unfold decodeFamily0
  split
  next cls => exact ⟨rfl, cls.symm⟩
  split
  next ret => exact ⟨rfl, ret.symm⟩
  next notCls notRet =>
    refine ⟨?_, word⟩
    have free : opNNN op ≠ 0x0E0 ∧ opNNN op ≠ 0x0EE :=
      ⟨fun e => notCls (by rw [← word, e]; rfl), fun e => notRet (by rw [← word, e]; rfl)⟩
    simpa [Instr.wellFormed, sysAddrFree] using free

theorem decodeFamily8_encode {op : Word} {i : Instr} (fam : (opFamily op).toNat = 8)
    (h : decodeFamily8 op = .ok i) : i.wellFormed = true ∧ encode i = op := by
  rw [decodeFamily8_eq_routed] at h
  obtain ⟨wf, enc⟩ := family8Table_encode _ _ _ (mem_of_routed h)
  rw [BitVec.ofNat_toNat, BitVec.setWidth_eq] at enc
  exact ⟨wf, enc.trans (regRegForm_of_family fam)⟩

theorem decodeFamilyE_encode {op : Word} {i : Instr} (fam : (opFamily op).toNat = 0xE)
    (h : decodeFamilyE op = .ok i) : i.wellFormed = true ∧ encode i = op := by
  rw [decodeFamilyE_eq_routed] at h
  obtain ⟨wf, enc⟩ := familyETable_encode _ _ (mem_of_routed h)
  rw [BitVec.ofNat_toNat, BitVec.setWidth_eq] at enc
  exact ⟨wf, enc.trans (regByteForm_of_family fam)⟩

theorem decodeFamilyF_encode {op : Word} {i : Instr} (fam : (opFamily op).toNat = 0xF)
    (h : decodeFamilyF op = .ok i) : i.wellFormed = true ∧ encode i = op := by
  rw [decodeFamilyF_eq_routed] at h
  obtain ⟨wf, enc⟩ := familyFTable_encode _ _ (mem_of_routed h)
  rw [BitVec.ofNat_toNat, BitVec.setWidth_eq] at enc
  exact ⟨wf, enc.trans (regByteForm_of_family fam)⟩

/-- The arms of the dispatcher, family by family. -/
theorem encode_decode {op : Word} {i : Instr} (h : decode op = .ok i) :
    i.wellFormed = true ∧ encode i = op := by
  unfold decode at h
  split at h
  case h_1 fam => cases h; exact decodeFamily0_encode fam
  case h_2 fam => cases h; exact ⟨rfl, addrForm_of_family fam⟩
  case h_3 fam => cases h; exact ⟨rfl, addrForm_of_family fam⟩
  case h_4 fam => cases h; exact ⟨rfl, regByteForm_of_family fam⟩
  case h_5 fam => cases h; exact ⟨rfl, regByteForm_of_family fam⟩
  case h_6 fam => cases h; exact ⟨rfl, regRegForm_of_family fam⟩
  case h_7 fam => cases h; exact ⟨rfl, regByteForm_of_family fam⟩
  case h_8 fam => cases h; exact ⟨rfl, regByteForm_of_family fam⟩
  case h_9 fam => exact decodeFamily8_encode fam h
  case h_10 fam => cases h; exact ⟨rfl, regRegForm_of_family fam⟩
  case h_11 fam => cases h; exact ⟨rfl, addrForm_of_family fam⟩
  case h_12 fam => cases h; exact ⟨rfl, addrForm_of_family fam⟩
  case h_13 fam => cases h; exact ⟨rfl, regByteForm_of_family fam⟩
  case h_14 fam => cases h; exact ⟨rfl, regRegForm_of_family fam⟩
  case h_15 fam => exact decodeFamilyE_encode fam h
  case h_16 =>
    have fam : (opFamily op).toNat = 0xF := by
      have := (opFamily op).isLt
      simp only [imp_false] at *
      omega
    exact decodeFamilyF_encode fam h

/-- Settles O2, by the arms of the dispatcher. -/
theorem encodeInvertsDecode : Obligations.EncodeInvertsDecode := fun _ _ => encode_decode

/-- Settles O5: the eight words are closed terms. -/
theorem workedDecodeExamples : Obligations.WorkedDecodeExamples := by
  unfold Obligations.WorkedDecodeExamples
  decide

/-! ## The opcode map (R84, R85) -/

theorem and_family_mask (op : Word) : op &&& 0xF000#16 = regRegForm (opFamily op) 0 0 0 := by
  conv_lhs => rw [← regRegForm_fields op]
  exact mask_family _ _ _ _

theorem and_n_mask (op : Word) : op &&& 0xF00F#16 = regRegForm (opFamily op) 0 0 (opN op) := by
  conv_lhs => rw [← regRegForm_fields op]
  exact mask_family_n _ _ _ _

theorem and_nn_mask (op : Word) : op &&& 0xF0FF#16 = regByteForm (opFamily op) 0 (opNN op) := by
  conv_lhs => rw [← regRegForm_fields op]
  rw [mask_family_nn]
  apply BitVec.eq_of_toNat_eq
  rw [regRegForm_toNat, regByteForm_toNat, opY_val, opN_toNat, opNN_toNat]
  omega

theorem opFamily_and (a b : Word) : opFamily (a &&& b) = opFamily a &&& opFamily b :=
  BitVec.extractLsb'_and

/-- The map's test of one row: `op & mask == match`. -/
def MapRow.selects (op : Word) (r : MapRow) : Bool := op &&& r.mask == r.select

/-- The rows of one family. -/
def familyRows (f : Nibble) : List MapRow :=
  (opcodeMapLow ++ opcodeMapMid ++ opcodeMapHigh).filter fun r => opFamily r.select == f

theorem opcodeMap_masks_keep_family :
    ∀ r ∈ opcodeMapLow ++ opcodeMapMid ++ opcodeMapHigh, opFamily r.mask = 0xF#4 := by
  decide

/-- A row selects words of its own family only. -/
theorem family_of_selects {op : Word} {r : MapRow}
    (mem : r ∈ opcodeMapLow ++ opcodeMapMid ++ opcodeMapHigh) (h : MapRow.selects op r = true) :
    opFamily r.select = opFamily op := by
  rw [← beq_iff_eq.1 h, opFamily_and, opcodeMap_masks_keep_family r mem, and_ones]

/-- So the row of a word is the first of its family's rows that selects it. -/
theorem selectedRow_eq_find_familyRows {op : Word} {f : Nibble} (fam : opFamily op = f) :
    selectedRow op = (familyRows f).find? (MapRow.selects op) := by
  subst fam
  rw [familyRows, List.find?_filter]
  refine List.find?_congr fun r mem => ?_
  cases sel : MapRow.selects op r with
  | false => exact sel.trans (by simp)
  | true => exact sel.trans (by simp [family_of_selects mem sel])

/-- What the map answers a word agrees with what the decoder answers it. -/
def RowAgrees (op : Word) (row : Option MapRow) : Except Rejection Instr → Prop
  | .ok i => row.map MapRow.pattern = some (patternOf i)
  | .error e => row = none ∧ e = .unknownOpcode op

theorem selects_of_family {op : Word} {r : MapRow} {f : Nibble} (fam : opFamily op = f)
    (mask : r.mask = 0xF000#16) (select : r.select = regRegForm f 0 0 0) :
    MapRow.selects op r = true := by
  rw [MapRow.selects, mask, and_family_mask, fam, select, beq_self_eq_true]

/-- A family of one row, whose mask is the family itself. -/
theorem rowAgrees_of_single {op : Word} {k : Nat} {i : Instr} (fam : (opFamily op).toNat = k)
    (rows : familyRows (BitVec.ofNat 4 k) =
      [⟨patternOf i, 0xF000#16, regRegForm (BitVec.ofNat 4 k) 0 0 0⟩]) :
    RowAgrees op (selectedRow op) (.ok i) := by
  rw [selectedRow_eq_find_familyRows (field_eq fam), rows,
    List.find?_cons_of_pos (selects_of_family (field_eq fam) rfl rfl)]
  rfl

/-- A family that routes on a field: row by row the map's test is the table's key. -/
theorem rowAgrees_of_routed {op : Word} {k : Nat} {table : List (Nat × Instr)} {rows : List MapRow}
    (same : List.Forall₂ (fun entry r => r.pattern = patternOf entry.2 ∧
      (MapRow.selects op r = true ↔ k = entry.1)) table rows) :
    RowAgrees op (rows.find? (MapRow.selects op)) (routed table k op) := by
  induction same with
  | nil => exact ⟨rfl, rfl⟩
  | @cons entry r table rows head _ ih =>
    obtain ⟨pattern, iff⟩ := head
    by_cases key : k = entry.1
    · rw [List.find?_cons_of_pos (iff.2 key), routed, List.lookup_cons, beq_iff_eq.2 key]
      exact congrArg some pattern
    · have skip : ¬MapRow.selects op r = true := mt iff.1 key
      rw [List.find?_cons_of_neg skip, routed, List.lookup_cons, beq_false_of_ne key]
      exact ih

theorem selects_n_iff {op : Word} {r : MapRow} {f : Nibble} {k : Nat} (fam : opFamily op = f)
    (mask : r.mask = 0xF00F#16) (select : r.select.toNat = f.toNat * 4096 + k) :
    MapRow.selects op r = true ↔ (opN op).toNat = k := by
  rw [MapRow.selects, mask, and_n_mask, fam, beq_iff_eq, ← BitVec.toNat_inj, regRegForm_toNat,
    select]
  omega

theorem selects_nn_iff {op : Word} {r : MapRow} {f : Nibble} {k : Nat} (fam : opFamily op = f)
    (mask : r.mask = 0xF0FF#16) (select : r.select.toNat = f.toNat * 4096 + k) :
    MapRow.selects op r = true ↔ (opNN op).toNat = k := by
  rw [MapRow.selects, mask, and_nn_mask, fam, beq_iff_eq, ← BitVec.toNat_inj, regByteForm_toNat,
    select]
  omega

/-- Mask 0xFFFF keeps the whole word. -/
theorem selects_word_iff {op : Word} {r : MapRow} (mask : r.mask = 0xFFFF#16) :
    MapRow.selects op r = true ↔ op = r.select := by
  rw [MapRow.selects, mask, show op &&& 0xFFFF#16 = op from BitVec.and_allOnes, beq_iff_eq]

theorem rowAgrees_family0 {op : Word} (fam : (opFamily op).toNat = 0) :
    RowAgrees op (selectedRow op) (.ok (decodeFamily0 op)) := by
  have fam : opFamily op = 0#4 := BitVec.eq_of_toNat_eq fam
  have rows : familyRows 0#4 =
    [⟨"00E0", 0xFFFF, 0x00E0⟩, ⟨"00EE", 0xFFFF, 0x00EE⟩, ⟨"0NNN", 0xF000, 0x0000⟩] := rfl
  rw [selectedRow_eq_find_familyRows fam, rows, decodeFamily0]
  split
  next cls => rw [List.find?_cons_of_pos ((selects_word_iff rfl).2 cls)]; rfl
  next notCls =>
    rw [List.find?_cons_of_neg (mt (selects_word_iff rfl).1 notCls)]
    split
    next ret => rw [List.find?_cons_of_pos ((selects_word_iff rfl).2 ret)]; rfl
    next notRet =>
      rw [List.find?_cons_of_neg (mt (selects_word_iff rfl).1 notRet),
        List.find?_cons_of_pos (selects_of_family fam rfl rfl)]
      rfl

theorem rowAgrees_family8 {op : Word} (fam : (opFamily op).toNat = 8) :
    RowAgrees op (selectedRow op) (decodeFamily8 op) := by
  have fam : opFamily op = 8#4 := BitVec.eq_of_toNat_eq fam
  rw [selectedRow_eq_find_familyRows fam, decodeFamily8_eq_routed]
  refine rowAgrees_of_routed ?_
  repeat refine .cons ⟨rfl, selects_n_iff fam rfl rfl⟩ ?_
  exact .nil

theorem rowAgrees_familyE {op : Word} (fam : (opFamily op).toNat = 0xE) :
    RowAgrees op (selectedRow op) (decodeFamilyE op) := by
  have fam : opFamily op = 0xE#4 := BitVec.eq_of_toNat_eq fam
  rw [selectedRow_eq_find_familyRows fam, decodeFamilyE_eq_routed]
  refine rowAgrees_of_routed ?_
  repeat refine .cons ⟨rfl, selects_nn_iff fam rfl rfl⟩ ?_
  exact .nil

theorem rowAgrees_familyF {op : Word} (fam : (opFamily op).toNat = 0xF) :
    RowAgrees op (selectedRow op) (decodeFamilyF op) := by
  have fam : opFamily op = 0xF#4 := BitVec.eq_of_toNat_eq fam
  rw [selectedRow_eq_find_familyRows fam, decodeFamilyF_eq_routed]
  refine rowAgrees_of_routed ?_
  repeat refine .cons ⟨rfl, selects_nn_iff fam rfl rfl⟩ ?_
  exact .nil

/-- The arms of the dispatcher against the rows of their family. -/
theorem rowAgrees_decode (op : Word) : RowAgrees op (selectedRow op) (decode op) := by
  unfold decode
  split
  case h_1 fam => exact rowAgrees_family0 fam
  case h_9 fam => exact rowAgrees_family8 fam
  case h_15 fam => exact rowAgrees_familyE fam
  case h_16 =>
    have fam : (opFamily op).toNat = 0xF := by
      have := (opFamily op).isLt
      simp only [imp_false] at *
      omega
    exact rowAgrees_familyF fam
  all_goals exact rowAgrees_of_single ‹_› rfl

/-- Settles O3, family by family of the map. -/
theorem decoderAgreesWithOpcodeMap : Obligations.DecoderAgreesWithOpcodeMap := fun op => by
  have := rowAgrees_decode op
  cases dec : decode op <;> (rw [dec] at this; exact this)

end Machine
end Sys2Proof

namespace Sys2Proof
namespace Machine

/-! ## Faults and completed cycles (R100, R111, R222) -/

/-- What PC holds after the fetch's advance, as a number. -/
theorem advancePc_pc_toNat {s : State} (near : s.pc.toNat ≤ 0xFFE) :
    (advancePc s).pc.toNat = s.pc.toNat + 2 := by
  rw [advancePc_pc, BitVec.toNat_add]
  exact Nat.mod_eq_of_lt (by simp; omega)

/-- A fetch's MemoryBounds is sound: PC is 16 bits wide. -/
theorem fetchFault_sound (s : State) :
    FaultRecord.sound ⟨.memoryBounds, s.pc, 0, max s.pc.toNat 0x1000⟩ := by
  have := s.pc.isLt
  simp only [FaultRecord.sound]
  omega

/-- Settles O13, over the ways a step ends; that the record holds the word at PC is
`encode_decode`. -/
theorem faultsArePrecise : Obligations.FaultsArePrecise := by
  intro s t h faulty
  have noFault : s.fault = none := (runnable_of_step h).2
  cases ends_of_step h with
  | fetchFaulted far eq => exact ⟨_, eq, fetchFault_sound s, rfl, .inr ⟨far, rfl⟩⟩
  | unknown _ _ _ eq =>
    subst eq
    exact absurd (by simpa using noFault) faulty
  | faulted near i dec k a sound eq =>
    exact ⟨_, eq, sound, rfl, .inl ⟨near, (encode_decode dec).2⟩⟩
  | completed _ i _ u _ frame eq =>
    subst eq
    have kept : u.fault = s.fault := frame.fault
    exact absurd (by simpa [kept] using noFault) faulty

/-! ## The invariant -/

/-- The tick and the phase are no part of the invariant, nor are the outputs. -/
theorem inv_timerTick {s : State} (mem : s.mem.wf = true)
    (bounds : (∀ k : Fin 16, s.stack[k].toNat ≤ 0x1000) ∧ s.pc.toNat ≤ 0x10FE)
    (fault : s.fault = none) : (timerTick { s with phase := .running }).Inv := by
  refine ⟨by simpa using mem, by simpa using bounds.1, by simpa using bounds.2, fun r recorded => ?_⟩
  rw [timerTick_fault] at recorded
  cases fault.symm.trans recorded

/-- Recording a sound fault at PC keeps the invariant. -/
theorem inv_record {s : State} {r : FaultRecord} (inv : s.Inv) (sound : r.sound)
    (pc : r.pc = s.pc) : State.Inv { s with fault := some r } := by
  obtain ⟨mem, stack, bound, _⟩ := inv
  refine ⟨mem, stack, bound, fun r' recorded => ?_⟩
  cases recorded
  exact ⟨sound, pc⟩

/-- Settles O15, over the ways a step ends: a fault adds a sound record, and a completed
instruction keeps the canonical form (`exec_wf`) and the ranges (`exec_bounds`). -/
theorem stepKeepsInvariant : Obligations.StepKeepsInvariant := by
  intro s t inv h
  have noFault : s.fault = none := (runnable_of_step h).2
  cases ends_of_step h with
  | fetchFaulted _ eq => exact eq ▸ inv_record inv (fetchFault_sound s) rfl
  | faulted _ i _ k a sound eq => exact eq ▸ inv_record inv sound rfl
  | unknown near _ _ eq =>
    obtain ⟨mem, stack, _, _⟩ := inv
    have pc := advancePc_pc_toNat near
    subst eq
    exact inv_timerTick (by simpa using mem) ⟨by simpa using stack, by simp at pc ⊢; omega⟩
      (by simpa using noFault)
  | completed near i _ u run frame eq =>
    obtain ⟨mem, stack, _, _⟩ := inv
    have pc := advancePc_pc_toNat near
    subst eq
    exact inv_timerTick (exec_wf run mem) (exec_bounds run (by omega) (by omega) stack)
      (frame.fault.trans noFault)

theorem resetWith_inv (font : Config.Font) : (State.resetWith font).Inv :=
  ⟨rfl, by simp [State.resetWith], by simp [State.resetWith, Config.progBase],
    fun _ recorded => by cases recorded⟩

/-- Settles O16: the default font is one font. -/
theorem resetMeetsInvariant : Obligations.ResetMeetsInvariant :=
  ⟨resetWith_inv Config.defaultFont, resetWith_inv⟩

/-! ## Nothing reads ST or the outputs (R29, R196)

`silenced` forgets both. That no part of a cycle reads them is said as equations: the silenced result
is the same when the start state has other values in them. -/

/-- `s` with the sound timer and the outputs forgotten. -/
def silenced (s : State) : State := { s with st := 0, events := [] }

/-- Two outcomes that differ in the sound timer and the outputs alone. -/
def SameButSound (o o' : Host.Outcome State Fault Refusal) : Prop :=
  mapNext silenced o = mapNext silenced o'

section
variable (st : Byte) (events : List Event)

/-- `s` with another sound timer and other outputs. -/
def withSound (s : State) : State := { s with st := st, events := events }

theorem skipIf_withSound (c : Bool) (s : State) :
    SameButSound (.next (skipIf c (withSound st events s))) (.next (skipIf c s)) := by
  cases c <;> rfl

theorem storeAtI_withSound (i : Instr) (bs : List Byte) (s : State) :
    SameButSound (storeAtI i bs (withSound st events s)) (storeAtI i bs s) := by
  unfold SameButSound
  cases e : writeRange s.mem s.i.toNat bs <;> simp only [storeAtI, withSound, e] <;> rfl

/-- No instruction reads them. -/
theorem exec_withSound (i : Instr) (s : State) :
    SameButSound (exec i (withSound st events s)) (exec i s) := by
  unfold SameButSound
  cases i with
  | seByte x nn => exact skipIf_withSound st events _ s
  | sneByte x nn => exact skipIf_withSound st events _ s
  | seReg x y n => exact skipIf_withSound st events _ s
  | sneReg x y n => exact skipIf_withSound st events _ s
  | ldB x => exact storeAtI_withSound st events _ _ s
  | stRegs x => exact storeAtI_withSound st events _ _ s
  | ret =>
    rcases Nat.eq_zero_or_pos s.sp.val with e | e
    · rw [execRet_of_empty e, execRet_of_empty (s := withSound st events s) e]; rfl
    · rw [execRet_of_nonempty e, execRet_of_nonempty (s := withSound st events s) e]; rfl
  | call nnn =>
    rcases Nat.lt_or_ge s.sp.val 16 with e | e
    · rw [execCall_of_room e, execCall_of_room (s := withSound st events s) e]; rfl
    · rw [execCall_of_full e, execCall_of_full (s := withSound st events s) e]; rfl
  | drw x y n =>
    cases e : readRange s.mem s.i.toNat n.val <;> simp only [exec, execDrw, withSound, e] <;> rfl
  | ldRegs x =>
    cases e : readRange s.mem s.i.toNat (regCount x) <;>
      simp only [exec, execLdRegs, withSound, e] <;> rfl
  | skp x =>
    cases e : keyOf s.v[x] <;> simp only [exec, execSkp, withSound, e]
    · rfl
    · exact skipIf_withSound st events _ s
  | sknp x =>
    cases e : keyOf s.v[x] <;> simp only [exec, execSknp, withSound, e]
    · rfl
    · exact skipIf_withSound st events _ s
  | ldVxK x =>
    cases e : scanKeys s.key <;> simp only [exec, execLdVxK, withSound, e] <;> rfl
  | _ => rfl

theorem executeOpcode_withSound (op : Word) (s : State) :
    SameButSound (executeOpcode op (withSound st events s)) (executeOpcode op s) := by
  unfold executeOpcode
  cases decode op with
  | error e => rfl
  | ok i => exact exec_withSound st events i s

end

/-- What the end of a completed cycle does but for the two. -/
def agedDelay (s : State) : State := { s with phase := .running, dt := countDown s.dt }

theorem silenced_timerTick (s : State) :
    silenced (timerTick { s with phase := .running }) = agedDelay (silenced s) := by
  unfold timerTick
  split <;> rfl

/-- The end of a cycle reads them for the tone only. -/
theorem finishCycle_sameButSound {t u : State} (same : silenced t = silenced u) :
    SameButSound (finishCycle (.next t)) (finishCycle (.next u)) := by
  have fault : t.fault = u.fault := show (silenced t).fault = (silenced u).fault by rw [same]
  unfold SameButSound
  by_cases e : t.fault.isSome
  · rw [finishCycle_of_fault e, finishCycle_of_fault (fault ▸ e), mapNext_next, mapNext_next, same]
  · rw [finishCycle_of_no_fault e, finishCycle_of_no_fault (fault ▸ e), mapNext_next, mapNext_next,
      silenced_timerTick, silenced_timerTick, same]

theorem executeOpcode_answers_next (op : Word) (s : State) : ∃ t, executeOpcode op s = .next t := by
  unfold executeOpcode
  cases decode op with
  | error e => exact ⟨_, rfl⟩
  | ok i => exact exec_answers_next i s

theorem runCycle_withSound (st : Byte) (events : List Event) (s : State) :
    SameButSound (runCycle (withSound st events s)) (runCycle s) := by
  rcases Nat.lt_or_ge 0xFFE s.pc.toNat with far | near
  · rw [runCycle_far far, runCycle_far (s := withSound st events s) far]; rfl
  have fetched : fetch (withSound st events s) = .ok s.wordAtPc :=
    fetch_ok (s := withSound st events s) near
  have executed : SameButSound (executeOpcode s.wordAtPc (advancePc (withSound st events s)))
      (executeOpcode s.wordAtPc (advancePc s)) :=
    executeOpcode_withSound st events s.wordAtPc (advancePc s)
  obtain ⟨u, hu⟩ := executeOpcode_answers_next s.wordAtPc (advancePc (withSound st events s))
  obtain ⟨t, ht⟩ := executeOpcode_answers_next s.wordAtPc (advancePc s)
  rw [hu, ht] at executed
  simp only [runCycle, fetched, fetch_ok near, hu, ht]
  exact finishCycle_sameButSound (Host.Outcome.next.inj executed)

/-- A state is what is left of it with its own sound timer and outputs put back. -/
theorem restore_of_silenced_eq {t u : State} (h : silenced u = silenced t) :
    { u with st := t.st, events := t.events } = t :=
  congrArg (fun s : State => { s with st := t.st, events := t.events }) h

/-- Settles O43: a cycle from the state with another sound timer and other outputs is the same but
for these. -/
theorem soundTimerIsNotObservable : Obligations.SoundTimerIsNotObservable := by
  intro s t st' events' h
  have runnable : s.runnable := runnable_of_step h
  obtain ⟨u, run, _⟩ := step_ends (s := withSound st' events' s) runnable
  refine ⟨u, run, restore_of_silenced_eq ?_⟩
  have same := runCycle_withSound st' events' s
  rw [← step_of_runnable runnable, h, ← step_of_runnable (s := withSound st' events' s) runnable,
    run] at same
  exact Host.Outcome.next.inj same

end Machine
end Sys2Proof

namespace Sys2Proof
namespace Machine

/-! ## A cycle and its execute phase (R100, R101, R111) -/

/-- Settles O6: an instruction's outcome is committed or aborted by the fault it leaves. -/
theorem stepRunsDecodedInstruction : Obligations.StepRunsDecodedInstruction := by
  intro s i h
  obtain ⟨runnable, near, dec⟩ := h
  obtain ⟨t, run⟩ := exec_answers_next i (advancePc s)
  refine ⟨t, run, fun noFault => ?_, fun faulty => ?_⟩
  · exact (step_of_runnable runnable).trans (runCycle_completed near dec run noFault)
  · exact (step_of_runnable runnable).trans (runCycle_faulted near dec run faulty)

/-- Settles O11: the fetch on either side of 0xFFE. -/
theorem fetchReadsBigEndianWord : Obligations.FetchReadsBigEndianWord := fun s =>
  ⟨fun near => ⟨_, fetch_ok near, wordAtPc_toNat s⟩, fetch_error⟩

/-- Settles O12: the cycle of a fetch above 0xFFE. -/
theorem fetchFaultIsRecorded : Obligations.FetchFaultIsRecorded := fun _ runnable far =>
  (step_of_runnable runnable).trans (runCycle_far far)

/-! ## The gate (R112, R255) -/

theorem step_of_halted {s : State} {r : FaultRecord} (phase : s.phase = .ready ∨ s.phase = .running)
    (fault : s.fault = some r) : step s = .fault (.halted r) := by
  rcases phase with phase | phase <;> simp [step, cycleGate, phase, fault]

theorem step_of_notAdmitted {s : State} (phase : s.phase = .uninit ∨ s.phase = .loadFailed) :
    step s = .fault (.notAdmitted .runCycle s.phase) := by
  rcases phase with phase | phase <;> simp [step, cycleGate, phase]

/-- Settles O14: the gate in its three cases. -/
theorem stepExactlyWhenRunnable : Obligations.StepExactlyWhenRunnable := by
  refine fun s => ⟨fun runnable => ?_, fun r => step_of_halted, step_of_notAdmitted⟩
  obtain ⟨t, run, _⟩ := step_ends runnable
  exact ⟨t, run⟩

/-! ## The timers (R195, R196) -/

/-- The outputs of the tick, by the number ST is. -/
theorem timerTick_tone (s : State) :
    (timerTick s).events = s.events ++ (if s.st.toNat > 0 then [.tone] else []) := by
  rw [timerTick_events]
  by_cases h : s.st = 0#8
  · simp [h]
  · rw [if_neg h, if_pos ((toNat_pos_iff s.st).2 h)]

theorem timerTick_frame (s : State) : timerTick s =
    { s with dt := (timerTick s).dt, st := (timerTick s).st, events := (timerTick s).events } := by
  unfold timerTick
  split <;> rfl

/-- Settles O7: the timers, the tone and the frame of the tick. -/
theorem tickAgesBothTimers : Obligations.TickAgesBothTimers := by
  refine fun s => ⟨?_, ?_, timerTick_tone s, timerTick_frame s⟩
  · rw [timerTick_dt, countDown_toNat]
  · rw [timerTick_st, countDown_toNat]

/-- One count down as a subtraction. -/
theorem countDown_eq_sub (b : Byte) : countDown b = b - (if b.toNat > 0 then 1 else 0) := by
  by_cases h : b = 0#8
  · simp [countDown, h]
  · rw [countDown, if_neg h, if_pos ((toNat_pos_iff b).2 h)]; rfl

/-- Settles O10: the diagnostic, then the tick. -/
theorem unknownOpcodeCycleCompletes : Obligations.UnknownOpcodeCycleCompletes := by
  intro s op e fetches dec
  obtain ⟨runnable, near, rfl⟩ := fetches
  rw [step_of_runnable runnable, runCycle_unknown runnable.2 near dec, timerTick_frame, timerTick_tone,
    timerTick_dt, timerTick_st, countDown_eq_sub, countDown_eq_sub, unknownOpcode_events,
    advancePc_instrPc]
  rfl

/-- The delay timer after the execute phase of what was decoded in `s` (R184). -/
def delayBeforeTick (s : State) : Except Rejection Instr → Byte
  | .ok (.ldDTVx x) => s.v[x]
  | _ => s.dt

/-- The sound timer after the execute phase of what was decoded in `s` (R185). -/
def soundBeforeTick (s : State) : Except Rejection Instr → Byte
  | .ok (.ldSTVx x) => s.v[x]
  | _ => s.st

theorem exec_ldDTVx (x : RegIdx) (s : State) : exec (.ldDTVx x) s = .next { s with dt := s.v[x] } :=
  rfl

theorem exec_ldSTVx (x : RegIdx) (s : State) : exec (.ldSTVx x) s = .next { s with st := s.v[x] } :=
  rfl

section
variable {i : Instr} {s u : State}

theorem exec_delay (run : exec i s = .next u) (frame : Frame (partsOf s i) s u) :
    u.dt = delayBeforeTick s (.ok i) := by
  cases i with
  | ldDTVx x => rw [exec_ldDTVx] at run; cases run; rfl
  | _ => exact frame.delay (by simp [partsOf])

theorem exec_sound (run : exec i s = .next u) (frame : Frame (partsOf s i) s u) :
    u.st = soundBeforeTick s (.ok i) := by
  cases i with
  | ldSTVx x => rw [exec_ldSTVx] at run; cases run; rfl
  | _ => exact frame.sound (by simp [partsOf])

/-- The one output of an execute phase is 0NNN's diagnostic, so none is a tone. -/
theorem exec_tones (run : exec i s = .next u) (frame : Frame (partsOf s i) s u) :
    u.events.count .tone = s.events.count .tone := by
  cases i with
  | sys nnn =>
    have diag : exec (.sys nnn) s = .next (unknownOpcode (encode (.sys nnn)) s) := rfl
    rw [diag] at run; cases run
    simp [List.count_append]
  | _ => rw [frame.outputs (by simp [partsOf])]

end

/-- A completed cycle is an execute phase that leaves the timers of `delayBeforeTick` and
`soundBeforeTick` and adds no tone, and then the tick. -/
theorem tick_of_completed {s t : State} (h : step s = .next t) (noFault : t.fault = none) :
    ∃ u : State, t = timerTick { u with phase := .running } ∧
      u.dt = delayBeforeTick s (decode s.wordAtPc) ∧ u.st = soundBeforeTick s (decode s.wordAtPc) ∧
      u.events.count .tone = s.events.count .tone := by
  rcases completes_of_step h noFault with ⟨e, dec, eq⟩ | ⟨i, u, dec, run, frame, eq⟩
  · rw [dec]
    exact ⟨_, eq, rfl, rfl, by simp [List.count_append]⟩
  · rw [dec]
    exact ⟨u, eq, exec_delay (s := advancePc s) run frame, exec_sound (s := advancePc s) run frame,
      exec_tones (s := advancePc s) run frame⟩

/-- Settles O8: the tick of what the execute phase left. -/
theorem completedCycleAgesTimersByOne : Obligations.CompletedCycleAgesTimersByOne := by
  intro s t h noFault dtBefore stBefore
  obtain ⟨u, rfl, delay, sound, tones⟩ := tick_of_completed h noFault
  have delay : u.dt = dtBefore := delay
  have sound : u.st = stBefore := sound
  refine ⟨?_, ?_, ?_⟩
  · rw [timerTick_dt, countDown_toNat, ← delay]
  · rw [timerTick_st, countDown_toNat, ← sound]
  · rw [timerTick_tone, List.count_append, tones, ← sound]
    congr 1
    split <;> rfl

/-- The first step of a run that does not stop. -/
theorem step_of_run_succ {k : Nat} {s t : State} (h : core.run (k + 1) s = .next t) :
    ∃ u, step s = .next u ∧ core.run k u = .next t := by
  cases one : core.step s with
  | next u => exact ⟨u, one, run_succ_of_step one k ▸ h⟩
  | fault r => simp only [Host.Core.run, one] at h; cases h
  | refused r => simp only [Host.Core.run, one] at h; cases h

/-- A fault ends a run, so one that ends with no fault had none on the way (R112). -/
theorem fault_none_of_run {k : Nat} {s t : State} (h : core.run k s = .next t)
    (noFault : t.fault = none) : s.fault = none := by
  cases k with
  | zero => cases h; exact noFault
  | succ k =>
    obtain ⟨u, one, _⟩ := step_of_run_succ h
    exact (runnable_of_step one).2

theorem delayBeforeTick_of_not_ldDTVx {s : State} {d : Except Rejection Instr}
    (h : ∀ x, d ≠ .ok (.ldDTVx x)) : delayBeforeTick s d = s.dt := by
  unfold delayBeforeTick
  split
  next x => exact absurd rfl (h x)
  next => rfl

/-- Settles O9, by induction on the number of cycles, the first one taken off. -/
theorem delayTimerCountsCycles : Obligations.DelayTimerCountsCycles := by
  intro k
  induction k with
  | zero =>
    intro s t h _ _
    cases h
    rfl
  | succ k ih =>
    intro s t h noFault never
    obtain ⟨u, one, rest⟩ := step_of_run_succ h
    have later : t.dt.toNat = u.dt.toNat - k := ih u t rest noFault fun j w x hj run =>
      never (j + 1) w x (by omega) ((run_succ_of_step one j).trans run)
    obtain ⟨w, rfl, delay, _⟩ := tick_of_completed one (fault_none_of_run rest noFault)
    have first := delayBeforeTick_of_not_ldDTVx (s := s) fun x => never 0 s x (by omega) rfl
    rw [later, timerTick_dt, countDown_toNat, delay, first]
    omega

/-! ## An ended run (R256) -/

theorem selfJump_iff (s : State) : selfJump s = true ↔
    s.pc.toNat ≤ 0xFFE ∧ opFamily s.wordAtPc = 0x1#4 ∧ s.pc = zextAddr (opNNN s.wordAtPc) := by
  unfold selfJump
  rcases Nat.lt_or_ge 0xFFE s.pc.toNat with far | near
  · rw [fetch_error far]
    simp; omega
  · rw [fetch_ok near]
    simp [near, zextAddr]

theorem selfJump_of_same {s t : State} (pc : t.pc = s.pc) (mem : t.mem = s.mem) :
    selfJump t = selfJump s := by
  simp only [selfJump, fetch, pc, mem]

/-- A run has ended in success at a jump to its own address with no fault. -/
theorem runEnd_success_iff (s : State) :
    runEnd s = some .success ↔ s.fault = none ∧ selfJump s = true := by
  unfold runEnd
  cases s.fault <;> simp

theorem runEnd_failure_iff (s : State) (r : FaultRecord) :
    runEnd s = some (.failure r) ↔ s.fault = some r := by
  unfold runEnd
  cases s.fault <;> simp

/-- A cycle of a jump to its own address is the tick and no more. -/
theorem step_of_selfJump {s : State} (runnable : s.runnable) (jump : selfJump s = true) :
    step s = .next (timerTick { s with phase := .running }) := by
  obtain ⟨near, fam, atNNN⟩ := (selfJump_iff s).1 jump
  have word : encode (.jp (opNNN s.wordAtPc)) = s.wordAtPc :=
    addrForm_of_family (congrArg BitVec.toNat fam)
  have dec : decode s.wordAtPc = .ok (.jp (opNNN s.wordAtPc)) :=
    (congrArg decode word).symm.trans (Laws.EncodingRoundTrip.jp _ rfl)
  rw [step_completed ⟨runnable, near, dec⟩ (exec_jp _ (advancePc s)) rfl, ← atNNN]
  rfl

/-- Settles O60: the self-jump's cycle changes nothing its own fetch rests on, and a halted core has
no step. -/
theorem endedRunsStayEnded : Obligations.EndedRunsStayEnded := by
  refine fun s phase => ⟨fun ended => ?_, fun r ended => ?_⟩
  · obtain ⟨noFault, jump⟩ := (runEnd_success_iff s).1 ended
    refine ⟨_, step_of_selfJump ⟨phase, noFault⟩ jump, ?_, timerTick_frame _⟩
    refine (runEnd_success_iff _).2 ⟨by simpa using noFault, ?_⟩
    rw [← jump]
    exact selfJump_of_same (by simp) (by simp)
  · exact step_of_halted phase ((runEnd_failure_iff s r).1 ended)

end Machine
end Sys2Proof

namespace Sys2Proof
namespace Machine

/-! ## BNNN (R129) -/

theorem decode_wordNNN_jpV0 (nnn : Addr) : decode (wordNNN 0xB nnn) = .ok (.jpV0 nnn) := by
  rw [show wordNNN 0xB nnn = encode (.jpV0 nnn) from wordNNN_eq_addrForm 0xB#4 nnn]
  exact Laws.EncodingRoundTrip.jpV0 nnn rfl

theorem exec_jpV0 (nnn : Addr) (s : State) :
    exec (.jpV0 nnn) s = .next (setPc (indexedTarget s.v[0] nnn) s) := rfl

/-- Settles O18: the target is a sum that cannot wrap, and above 0xFFE the fetch fails. -/
theorem indexedJumpAddsV0 : Obligations.IndexedJumpAddsV0 := by
  refine fun nnn s => ⟨decode_wordNNN_jpV0 nnn, _, exec_jpV0 nnn s, ⟨?_, ?_, fetch_error⟩,
    setPc_frame _ s⟩
  · exact indexedTarget_toNat s.v[0] nnn
  · have := s.v[0].isLt
    rw [setPc_pc, indexedTarget_toNat]
    omega

/-! ## 2NNN and 00EE (R122, R124) -/

theorem decode_wordNNN_call (nnn : Addr) : decode (wordNNN 2 nnn) = .ok (.call nnn) := by
  rw [wordNNN_call]
  exact Laws.EncodingRoundTrip.call nnn rfl

/-- The state 2NNN leaves where a slot is free. -/
def pushed (nnn : Addr) (s : State) (room : s.sp.val < 16) : State :=
  { s with
    pc := zextAddr nnn
    stack := s.stack.set s.sp.val s.pc
    sp := ⟨s.sp.val + 1, by omega⟩ }

theorem setSlot_frame (k : Fin 16) (w : Word) (s : State) :
    Frame [.slot k] s { s with stack := s.stack.set k w } := by
  have other : ∀ j : Fin 16, j ≠ k → (s.stack.set k w)[j] = s.stack[j] := fun j ne =>
    Vector.getElem_set_ne k.isLt j.isLt fun e => ne (Fin.ext e.symm)
  constructor <;> simp_all

theorem pushed_frame (nnn : Addr) {s : State} (room : s.sp.val < 16) :
    Frame [.pc, .sp, .slot ⟨s.sp.val, room⟩] s (pushed nnn s room) := by
  have slot := setSlot_frame ⟨s.sp.val, room⟩ s.pc s
  have rest : Frame [.pc, .sp] { s with stack := s.stack.set s.sp.val s.pc } (pushed nnn s room) := by
    constructor <;> simp_all [pushed]
  exact (slot.trans rest).mono (by simp)

/-- Settles O19: the two branches of 2NNN. -/
theorem callPushesReturnAddress : Obligations.CallPushesReturnAddress := by
  refine fun nnn s => ⟨decode_wordNNN_call nnn, fun room => ?_, fun full => ?_⟩
  · refine ⟨_, execCall_of_room room, ⟨zextAddr_toNat nnn, rfl, ?_⟩, pushed_frame nnn room⟩
    exact Vector.getElem_set_self room
  · rw [wordNNN_call]
    exact execCall_of_full (Nat.le_of_eq full.symm)

/-- Settles O20: the two branches of 00EE. -/
theorem returnPopsIntoPc : Obligations.ReturnPopsIntoPc := by
  refine fun s => ⟨Laws.EncodingRoundTrip.ret rfl, fun pos => ?_, fun empty => ?_⟩
  · refine ⟨_, execRet_of_nonempty pos, ⟨Nat.sub_add_cancel pos, rfl⟩, ?_⟩
    constructor <;> simp_all
  · exact execRet_of_empty empty

/-- 00EE pops what 2NNN pushed: SP and PC are what they were, and the slot keeps its value. -/
theorem execRet_pushed (nnn : Addr) {s : State} (room : s.sp.val < 16) :
    exec .ret (pushed nnn s room) = .next { s with stack := s.stack.set s.sp.val s.pc } := by
  rw [execRet_of_nonempty (s := pushed nnn s room) (Nat.succ_pos s.sp.val)]
  simp [pushed]

/-- Settles O21: of a call and a return, the slot alone remains. -/
theorem returnAfterCallComesBack : Obligations.ReturnAfterCallComesBack := fun nnn s room =>
  ⟨_, _, execCall_of_room room, execRet_pushed nnn room, setSlot_frame ⟨s.sp.val, room⟩ s.pc s⟩

/-! ## 5XYN and 9XYN (R127, R128) -/

theorem decode_wordXYN_seReg (x y : RegIdx) (n : Nibble) :
    decode (wordXYN 5 x y n.toNat) = .ok (.seReg x y n) := by
  rw [show wordXYN 5 x y n.toNat = encode (.seReg x y n) from wordXYN_eq_regRegForm 5#4 x y n]
  exact Laws.EncodingRoundTrip.seReg x y n rfl

theorem decode_wordXYN_sneReg (x y : RegIdx) (n : Nibble) :
    decode (wordXYN 9 x y n.toNat) = .ok (.sneReg x y n) := by
  rw [show wordXYN 9 x y n.toNat = encode (.sneReg x y n) from wordXYN_eq_regRegForm 9#4 x y n]
  exact Laws.EncodingRoundTrip.sneReg x y n rfl

theorem exec_seReg (x y : RegIdx) (n : Nibble) (s : State) :
    exec (.seReg x y n) s = .next (skipIf (s.v[x] == s.v[y]) s) := rfl

theorem exec_sneReg (x y : RegIdx) (n : Nibble) (s : State) :
    exec (.sneReg x y n) s = .next (skipIf (s.v[x] != s.v[y]) s) := rfl

/-- Settles O23: both instructions are a skip, on V[X] = V[Y] and on V[X] ≠ V[Y]. -/
theorem skipOnRegisterComparison : Obligations.SkipOnRegisterComparison := by
  refine fun x y n s => ⟨decode_wordXYN_seReg x y n, decode_wordXYN_sneReg x y n, ?_, ?_⟩
  · exact completes_of_skipIf (exec_seReg x y n s) (by simp only [beq_iff_eq])
  · exact completes_of_skipIf (exec_sneReg x y n s) (by simp only [bne_iff_ne, ite_not])

/-! ## 0NNN (R121) -/

theorem exec_sys (nnn : Addr) (s : State) :
    exec (.sys nnn) s = .next (unknownOpcode (encode (.sys nnn)) s) := rfl

/-- Settles O24: 0NNN is the diagnostic of its own word. -/
theorem sysOnlyReportsItself : Obligations.SysOnlyReportsItself := by
  intro nnn s notCls notRet
  rw [wordNNN_sys]
  refine ⟨Laws.EncodingRoundTrip.sys nnn ?_, _, exec_sys nnn s, rfl, unknownOpcode_frame _ s⟩
  simpa [Instr.wellFormed, sysAddrFree] using ⟨notCls, notRet⟩

/-! ## 8XY0 to 8XY3 (R143 to R146) -/

theorem decode_wordXYN_ldReg (x y : RegIdx) : decode (wordXYN 8 x y 0) = .ok (.ldReg x y) :=
  decode_wordXYN_8_of_listed (n := 0) rfl

theorem decode_wordXYN_orReg (x y : RegIdx) : decode (wordXYN 8 x y 1) = .ok (.orReg x y) :=
  decode_wordXYN_8_of_listed (n := 1) rfl

theorem decode_wordXYN_andReg (x y : RegIdx) : decode (wordXYN 8 x y 2) = .ok (.andReg x y) :=
  decode_wordXYN_8_of_listed (n := 2) rfl

theorem decode_wordXYN_xorReg (x y : RegIdx) : decode (wordXYN 8 x y 3) = .ok (.xorReg x y) :=
  decode_wordXYN_8_of_listed (n := 3) rfl

/-- An instruction that writes a result of which `P` holds, and then clears VF. -/
theorem completes_of_clearVf {i : Instr} {s : State} {x : RegIdx} {result : Byte} {P : Byte → Prop}
    (run : exec i s = .next (setRegThenFlag x result clearedFlag s)) (holds : P result) :
    Completes i s [.reg x, .reg vf] fun t => (x ≠ vf → P t.v[x]) ∧ t.v[vf] = 0 := by
  refine ⟨_, run, ⟨fun notFlag => ?_, ?_⟩, setRegThenFlag_frame x result clearedFlag s⟩
  · rwa [setRegThenFlag_result x result clearedFlag s notFlag]
  · exact setRegThenFlag_vf x result clearedFlag s

/-- Settles O28: each instruction is one bitwise result and the cleared flag. -/
theorem moveAndLogicClearVf : Obligations.MoveAndLogicClearVf := by
  refine fun x y s => ⟨decode_wordXYN_ldReg x y, decode_wordXYN_orReg x y, decode_wordXYN_andReg x y,
    decode_wordXYN_xorReg x y, ?_, ?_, ?_, ?_⟩
  · exact completes_of_clearVf (P := fun r => r = s.v[y]) rfl rfl
  · exact completes_of_clearVf (result := s.v[x] ||| s.v[y])
      (P := fun r => ∀ b, r.getLsbD b = (s.v[x].getLsbD b || s.v[y].getLsbD b)) rfl
      fun _ => BitVec.getLsbD_or
  · exact completes_of_clearVf (result := s.v[x] &&& s.v[y])
      (P := fun r => ∀ b, r.getLsbD b = (s.v[x].getLsbD b && s.v[y].getLsbD b)) rfl
      fun _ => BitVec.getLsbD_and
  · exact completes_of_clearVf (result := s.v[x] ^^^ s.v[y])
      (P := fun r => ∀ b, r.getLsbD b = (s.v[x].getLsbD b ^^ s.v[y].getLsbD b)) rfl
      fun _ => BitVec.getLsbD_xor

/-! ## CXNN (R152) -/

theorem decode_wordXNN_rnd (x : RegIdx) (nn : Byte) :
    decode (wordXNN 0xC x nn) = .ok (.rnd x nn) := by
  rw [show wordXNN 0xC x nn = encode (.rnd x nn) from wordXNN_eq_regByteForm 0xC#4 x nn]
  exact Laws.EncodingRoundTrip.rnd x nn rfl

theorem exec_rnd (x : RegIdx) (nn : Byte) (s : State) :
    exec (.rnd x nn) s = .next (setReg x (Config.rand s.draws &&& nn) (drawRand s).2) := rfl

/-- A draw moves the oracle on. -/
theorem drawRand_frame (s : State) : Frame [.oracle] s (drawRand s).2 := by
  constructor <;> simp_all

/-- Settles O32: one draw, and one register write of its masked byte. -/
theorem randomByteIsMasked : Obligations.RandomByteIsMasked := by
  refine fun x nn s => ⟨decode_wordXNN_rnd x nn, _, exec_rnd x nn s, ⟨fun b => ?_, rfl⟩, ?_⟩
  · rw [setReg_v_self, BitVec.getLsbD_and]
  · exact ((drawRand_frame s).trans (setReg_frame x _ _)).mono (by simp)

/-! ## ANNN (R200) -/

theorem decode_wordNNN_ldI (nnn : Addr) : decode (wordNNN 0xA nnn) = .ok (.ldI nnn) := by
  rw [show wordNNN 0xA nnn = encode (.ldI nnn) from wordNNN_eq_addrForm 0xA#4 nnn]
  exact Laws.EncodingRoundTrip.ldI nnn rfl

theorem exec_ldI (nnn : Addr) (s : State) : exec (.ldI nnn) s = .next (setI (zextAddr nnn) s) := rfl

/-- Settles O44: ANNN writes I only. -/
theorem loadIndexImmediate : Obligations.LoadIndexImmediate := fun nnn s =>
  ⟨decode_wordNNN_ldI nnn, completes_of_setI (exec_ldI nnn s) (zextAddr_toNat nnn)⟩

/-! ## EX9E and EXA1 (R180 to R182) -/

theorem decode_wordXNN_skp (x : RegIdx) : decode (wordXNN 0xE x 0x9E) = .ok (.skp x) :=
  decode_wordXNN_E x 0x9E

theorem decode_wordXNN_sknp (x : RegIdx) : decode (wordXNN 0xE x 0xA1) = .ok (.sknp x) :=
  decode_wordXNN_E x 0xA1

section
variable {x : RegIdx} {s : State}

theorem exec_skp_of_key (h : s.v[x].toNat < 16) :
    exec (.skp x) s = .next (skipIf s.key[s.v[x].toNat] s) := by
  rcases execSkp_cases x s with ⟨_, run⟩ | ⟨above, _⟩
  · exact run
  · omega

theorem exec_sknp_of_key (h : s.v[x].toNat < 16) :
    exec (.sknp x) s = .next (skipIf (!s.key[s.v[x].toNat]) s) := by
  rcases execSknp_cases x s with ⟨_, run⟩ | ⟨above, _⟩
  · exact run
  · omega

theorem takesFault_skp (h : 0x0F < s.v[x].toNat) :
    TakesFault (.skp x) s .keyIndexRange (wordXNN 0xE x 0x9E) s.v[x].toNat := by
  rw [wordXNN_skp]
  rcases execSkp_cases x s with ⟨below, _⟩ | ⟨_, run⟩
  · omega
  · exact run

theorem takesFault_sknp (h : 0x0F < s.v[x].toNat) :
    TakesFault (.sknp x) s .keyIndexRange (wordXNN 0xE x 0xA1) s.v[x].toNat := by
  rw [wordXNN_sknp]
  rcases execSknp_cases x s with ⟨below, _⟩ | ⟨_, run⟩
  · omega
  · exact run

end

/-- Settles O38: both are a skip on the key's level, or a KeyIndexRange. -/
theorem skipOnKey : Obligations.SkipOnKey := by
  refine fun x s => ⟨decode_wordXNN_skp x, decode_wordXNN_sknp x, fun h => ⟨?_, ?_⟩, fun h => ?_⟩
  · exact completes_of_skipIf (exec_skp_of_key h) rfl
  · exact completes_of_skipIf (exec_sknp_of_key h) (by cases s.key[s.v[x].toNat] <;> rfl)
  · exact ⟨takesFault_skp h, takesFault_sknp h⟩

/-! ## FX15 and FX18 (R184, R185) -/

theorem decode_wordXNN_ldDTVx (x : RegIdx) : decode (wordXNN 0xF x 0x15) = .ok (.ldDTVx x) :=
  decode_wordXNN_F x 0x15

theorem decode_wordXNN_ldSTVx (x : RegIdx) : decode (wordXNN 0xF x 0x18) = .ok (.ldSTVx x) :=
  decode_wordXNN_F x 0x18

theorem setDelay_frame (b : Byte) (s : State) : Frame [.delay] s { s with dt := b } := by
  constructor <;> simp_all

theorem setSound_frame (b : Byte) (s : State) : Frame [.sound] s { s with st := b } := by
  constructor <;> simp_all

/-- Settles O40: each writes one timer, and the tick of its cycle counts that one down. -/
theorem writeTimers : Obligations.WriteTimers := by
  refine fun x s => ⟨decode_wordXNN_ldDTVx x, decode_wordXNN_ldSTVx x,
    ⟨_, exec_ldDTVx x s, rfl, setDelay_frame _ s⟩, ⟨_, exec_ldSTVx x s, rfl, setSound_frame _ s⟩,
    fun h => ?_, fun h => ?_⟩
  · refine ⟨_, step_completed h (exec_ldDTVx x (advancePc s)) rfl, ?_⟩
    rw [timerTick_dt]
    exact countDown_toNat s.v[x]
  · refine ⟨_, step_completed h (exec_ldSTVx x (advancePc s)) rfl, ?_, timerTick_tone _⟩
    rw [timerTick_st]
    exact countDown_toNat s.v[x]

/-! ## FX0A (R186) -/

theorem decode_wordXNN_ldVxK (x : RegIdx) : decode (wordXNN 0xF x 0x0A) = .ok (.ldVxK x) :=
  decode_wordXNN_F x 0x0A

theorem exec_ldVxK_of_key {x : RegIdx} {s : State} {k : KeyIdx} (h : scanKeys s.key = some k) :
    exec (.ldVxK x) s = .next (setReg x (keyByte k) s) := by
  simp only [exec, execLdVxK, h]

theorem exec_ldVxK_of_none {x : RegIdx} {s : State} (h : ∀ k : KeyIdx, s.key[k] = false) :
    exec (.ldVxK x) s = .next (setPc (s.pc - 2) s) := by
  simp only [exec, execLdVxK, scanKeys_none h]

/-- Settles O41: the scan finds the highest key, or none; then the cycle is PC back, and the tick. -/
theorem waitForHighestKey : Obligations.WaitForHighestKey := by
  refine fun x s => ⟨decode_wordXNN_ldVxK x, fun k on above => ?_, fun none_pressed => ⟨?_, fun h => ?_⟩⟩
  · refine ⟨_, exec_ldVxK_of_key (scanKeys_highest on above), ?_, setReg_frame x _ s⟩
    exact (congrArg BitVec.toNat (setReg_v_self x _ s)).trans (keyByte_toNat k)
  · exact ⟨_, exec_ldVxK_of_none none_pressed, rfl, setPc_frame _ s⟩
  · have run : exec (.ldVxK x) (advancePc s) = .next (setPc ((advancePc s).pc - 2) (advancePc s)) :=
      exec_ldVxK_of_none none_pressed
    refine ⟨_, step_completed h run rfl, ?_, ?_, ?_, ?_, ?_, timerTick_tone _⟩
    · rw [timerTick_fault]; exact h.1.2
    · rw [timerTick_pc]; exact advancePc_instrPc s
    · rw [timerTick_v]; rfl
    · rw [timerTick_dt]; exact countDown_toNat s.dt
    · rw [timerTick_st]; exact countDown_toNat s.st

end Machine
end Sys2Proof

namespace Sys2Proof
namespace Machine

/-! ## Drawing (R166, R169, R170) -/

theorem collisionFlag_eq_one_iff (hit : Bool) : collisionFlag hit = 1 ↔ hit = true := by
  cases hit <;> decide

theorem collisionFlag_eq_zero_iff (hit : Bool) : collisionFlag hit = 0 ↔ hit = false := by
  cases hit <;> decide

/-- The draw turns an on cell off exactly when a set sprite bit meets one. -/
theorem drawnSprite_hit_iff (s : State) (x y : RegIdx) (n : Fin 16) :
    (drawnSprite s x y n).2 = true ↔ ∃ r b : Nat, r < n.val ∧ b < 8 ∧ spriteBit s r b = true ∧
      s.disp[spriteX s x b][spriteY s y r] = true := by
  rw [drawnSprite, drawRows_hit _ _ 0 _ _ (spriteRows_length s n)]
  simp only [rowsCover_sprite, Bool.false_eq_true, false_or]
  constructor
  · rintro ⟨_, _, ⟨r, b, hr, hb, bit, rfl, rfl⟩, on⟩
    exact ⟨r, b, hr, hb, bit, on⟩
  · rintro ⟨r, b, hr, hb, bit, on⟩
    exact ⟨_, _, ⟨r, b, hr, hb, bit, rfl, rfl⟩, on⟩

/-- The state a draw leaves. -/
def drawn (s : State) (x y : RegIdx) (n : Fin 16) : State :=
  setReg vf (collisionFlag (drawnSprite s x y n).2) { s with disp := (drawnSprite s x y n).1 }

theorem drawn_vf (s : State) (x y : RegIdx) (n : Fin 16) :
    (drawn s x y n).v[vf] = collisionFlag (drawnSprite s x y n).2 :=
  setReg_v_self vf _ _

/-- Settles O35: VF is the flag of `drawnSprite`, whose origin is read before it is written. -/
theorem drawReportsCollision : Obligations.DrawReportsCollision := by
  refine fun x y n s inMemory => ⟨drawn s x y n, exec_drw_of_inMemory inMemory, rfl, ?_, ?_⟩
  · rw [drawn_vf, collisionFlag_eq_one_iff, drawnSprite_hit_iff]
  · rw [drawn_vf, collisionFlag_eq_one_iff, collisionFlag_eq_zero_iff]
    exact Bool.eq_false_or_eq_true _

section
variable {s : State} {x y : RegIdx} {n : Fin 16}

/-- A draw that writes neither coordinate register leaves its own origin and its own sprite. -/
theorem drawn_sprite_same (hx : x ≠ vf) (hy : y ≠ vf) :
    (drawn s x y n).v[x] = s.v[x] ∧ (drawn s x y n).v[y] = s.v[y] ∧
      spriteRows (drawn s x y n) n = spriteRows s n :=
  ⟨setReg_v_other vf x _ _ hx.symm, setReg_v_other vf y _ _ hy.symm, rfl⟩

theorem drawnSprite_twice (hx : x ≠ vf) (hy : y ≠ vf) :
    (drawnSprite (drawn s x y n) x y n).1 = s.disp := by
  obtain ⟨sameX, sameY, sameRows⟩ := drawn_sprite_same (s := s) (n := n) hx hy
  rw [drawnSprite, sameX, sameY, sameRows]
  exact drawRows_twice _ _ _ _ (spriteRows_length s n) false

/-- Where every cell under the sprite was off, the first draw turns on the cells of the set bits. -/
theorem drawnSprite_twice_hit (hx : x ≠ vf) (hy : y ≠ vf)
    (off : ∀ r b : Nat, r < n.val → b < 8 → s.disp[spriteX s x b][spriteY s y r] = false)
    (set : ∃ r b : Nat, r < n.val ∧ b < 8 ∧ spriteBit s r b = true) :
    (drawnSprite s x y n).2 = false ∧ (drawnSprite (drawn s x y n) x y n).2 = true := by
  refine ⟨?_, ?_⟩
  · rw [Bool.eq_false_iff, ne_eq, drawnSprite_hit_iff]
    rintro ⟨r, b, hr, hb, _, on⟩
    rw [off r b hr hb] at on
    cases on
  · obtain ⟨r, b, hr, hb, bit⟩ := set
    obtain ⟨sameX, sameY, _⟩ := drawn_sprite_same (s := s) (n := n) hx hy
    refine (drawnSprite_hit_iff _ x y n).2 ⟨r, b, hr, hb, bit, ?_⟩
    have cell : (drawnSprite s x y n).1[spriteX s x b][spriteY s y r] = true := by
      rw [drawnSprite_under s x y hr hb, off r b hr hb, bit]
      rfl
    have col : spriteX (drawn s x y n) x b = spriteX s x b := by rw [spriteX, sameX]; rfl
    have row : spriteY (drawn s x y n) y r = spriteY s y r := by rw [spriteY, sameY]; rfl
    simp only [col, row]
    exact cell

end

/-- Settles O36: the second draw starts from what the first leaves. -/
theorem drawingTwiceRestoresTheDisplay : Obligations.DrawingTwiceRestoresTheDisplay := by
  intro x y n s inMemory hx hy
  refine ⟨drawn s x y n, drawn (drawn s x y n) x y n, exec_drw_of_inMemory inMemory,
    exec_drw_of_inMemory (s := drawn s x y n) inMemory, drawnSprite_twice hx hy, fun off set => ?_⟩
  rw [drawn_vf, drawn_vf, collisionFlag_eq_zero_iff, collisionFlag_eq_one_iff]
  exact drawnSprite_twice_hit hx hy off set

/-! ## Who writes the display, I and memory (R26, R32, R66)

A step that runs no instruction to its end leaves all three; one that does leaves what is in no part
of its instruction. -/

theorem step_kept_or_completed {s t : State} (h : step s = .next t) :
    (t.disp = s.disp ∧ t.i = s.i ∧ t.mem = s.mem) ∨
    ∃ (i : Instr) (u : State), decode s.wordAtPc = .ok i ∧ exec i (advancePc s) = .next u ∧
      t.disp = u.disp ∧ t.i = u.i ∧ t.mem = u.mem := by
  cases ends_of_step h with
  | fetchFaulted _ eq => subst eq; exact .inl ⟨rfl, rfl, rfl⟩
  | unknown _ _ _ eq => subst eq; exact .inl (by simp)
  | faulted _ _ _ _ _ _ eq => subst eq; exact .inl ⟨rfl, rfl, rfl⟩
  | completed _ i dec u run _ eq => subst eq; exact .inr ⟨i, u, dec, run, by simp⟩

/-- An execute phase that takes a fault leaves what its frame names too. -/
theorem exec_kept {i : Instr} {s u : State} (run : exec i s = .next u) :
    (Part.display ∉ partsOf s i → u.disp = s.disp) ∧ (Part.index ∉ partsOf s i → u.i = s.i) ∧
      ∀ a, Part.byte a ∉ partsOf s i → u.mem.byte a = s.mem.byte a := by
  cases exec_ends i s with
  | faulted k a _ eq => rw [eq] at run; cases run; exact ⟨fun _ => rfl, fun _ => rfl, fun _ _ => rfl⟩
  | completed v eq frame =>
    rw [eq] at run; cases run
    exact ⟨frame.display, frame.index, frame.byte⟩

section
variable {i : Instr} {s u : State}

theorem writer_of_disp (run : exec i s = .next u) (changed : u.disp ≠ s.disp) :
    i = .cls ∨ ∃ x y n, i = .drw x y n := by
  cases i with
  | cls => exact .inl rfl
  | drw x y n => exact .inr ⟨x, y, n, rfl⟩
  | _ => exact absurd ((exec_kept run).1 (by simp [partsOf])) changed

theorem writer_of_index (run : exec i s = .next u) (changed : u.i ≠ s.i) :
    (∃ nnn, i = .ldI nnn) ∨ ∃ x, i = .addI x ∨ i = .ldF x := by
  cases i with
  | ldI nnn => exact .inl ⟨nnn, rfl⟩
  | addI x => exact .inr ⟨x, .inl rfl⟩
  | ldF x => exact .inr ⟨x, .inr rfl⟩
  | _ => exact absurd ((exec_kept run).2.1 (by simp [partsOf])) changed

/-- A byte a store changed is one of those it names. -/
theorem within_of_putBytes {m : Memory} {base a : Nat} {bs : List Byte}
    (changed : (m.putBytes base bs).byte a ≠ m.byte a) : base ≤ a ∧ a < base + bs.length := by
  refine ⟨?_, ?_⟩
  · by_contra below
    exact changed (byte_putBytes_below _ _ _ _ (by omega))
  · by_contra above
    exact changed (byte_putBytes_above _ _ _ _ (by omega))

theorem writer_of_byte (run : exec i s = .next u) {a : Nat}
    (changed : u.mem.byte a ≠ s.mem.byte a) :
    ∃ x : RegIdx, s.i.toNat ≤ a ∧ a < 4096 ∧
      ((i = .ldB x ∧ a ≤ s.i.toNat + 2) ∨ (i = .stRegs x ∧ a ≤ s.i.toNat + x.val)) := by
  cases i with
  | ldB x =>
    rcases execLdB_cases x s with ⟨e, fits⟩ | ⟨e, _⟩ <;> (rw [e] at run; cases run)
    · obtain ⟨low, high⟩ := within_of_putBytes changed
      rw [bcdDigits_length] at high
      exact ⟨x, low, by omega, .inl ⟨rfl, by omega⟩⟩
    · exact absurd rfl changed
  | stRegs x =>
    rcases execStRegs_cases x s with ⟨e, fits⟩ | ⟨e, _⟩ <;> (rw [e] at run; cases run)
    · obtain ⟨low, high⟩ := within_of_putBytes changed
      rw [regsUpTo_length] at high
      exact ⟨x, low, by omega, .inr ⟨rfl, by omega⟩⟩
    · exact absurd rfl changed
  | _ => exact absurd ((exec_kept run).2.2 a (by simp [partsOf])) changed

end

/-- Settles O37: the reset display, the instruction of a step that changed it, and the port's
layout. -/
theorem onlyDisplayFamilyWritesDisplay : Obligations.OnlyDisplayFamilyWritesDisplay := by
  refine ⟨allOff_cell, fun s t h changed => ?_, displayWords_get⟩
  rcases step_kept_or_completed h with ⟨same, _⟩ | ⟨i, u, dec, run, disp, _⟩
  · exact absurd same changed
  · rw [dec]
    rw [disp] at changed
    simpa using writer_of_disp (s := advancePc s) run changed

/-- Settles O54: the instruction of a step that changed I, or a byte. -/
theorem onlyTheListedInstructionsWriteIndexOrMemory :
    Obligations.OnlyTheListedInstructionsWriteIndexOrMemory := by
  intro s t h
  rcases step_kept_or_completed h with ⟨_, index, mem⟩ | ⟨i, u, dec, run, _, index, mem⟩
  · exact ⟨fun changed => absurd index changed, fun a changed => absurd (by rw [mem]) changed⟩
  · rw [dec, index, mem]
    refine ⟨fun changed => ?_, fun a changed => ?_⟩
    · simpa using writer_of_index (s := advancePc s) run changed
    · simpa using writer_of_byte (s := advancePc s) run changed

end Machine
end Sys2Proof

namespace Sys2Proof
namespace Machine

/-! ## FX33, FX55 and FX65 within memory (R203 to R205) -/

theorem decode_wordXNN_ldB (x : RegIdx) : decode (wordXNN 0xF x 0x33) = .ok (.ldB x) :=
  decode_wordXNN_F x 0x33

theorem decode_wordXNN_stRegs (x : RegIdx) : decode (wordXNN 0xF x 0x55) = .ok (.stRegs x) :=
  decode_wordXNN_F x 0x55

theorem decode_wordXNN_ldRegs (x : RegIdx) : decode (wordXNN 0xF x 0x65) = .ok (.ldRegs x) :=
  decode_wordXNN_F x 0x65

/-- The state FX55 leaves where the registers fit. -/
def storedRegs (x : RegIdx) (s : State) : State :=
  { s with mem := s.mem.putBytes s.i.toNat (regsUpTo s.v x) }

section
variable {x : RegIdx} {s : State}

theorem storedRegs_byte {r : RegIdx} (h : r.val ≤ x.val) :
    (storedRegs x s).mem.byte (s.i.toNat + r.val) = s.v[r] :=
  byte_putRegs s.mem s.i.toNat s.v x r h

theorem storedRegs_frame :
    Frame ((List.range (x.val + 1)).map fun k => .byte (s.i.toNat + k)) s (storedRegs x s) := by
  have frame := putBytes_frame s (regsUpTo s.v x)
  rwa [regsUpTo_length] at frame

theorem exec_ldB_of_fits (h : s.i.toNat + 2 < 4096) :
    exec (.ldB x) s = .next { s with mem := s.mem.putBytes s.i.toNat (bcdDigits s.v[x]) } := by
  rcases execLdB_cases x s with ⟨run, _⟩ | ⟨_, beyond⟩
  · exact run
  · omega

theorem exec_stRegs_of_fits (h : s.i.toNat + x.val < 4096) :
    exec (.stRegs x) s = .next (storedRegs x s) := by
  rcases execStRegs_cases x s with ⟨run, _⟩ | ⟨_, beyond⟩
  · exact run
  · omega

theorem exec_ldRegs_of_fits (h : s.i.toNat + x.val < 4096) :
    exec (.ldRegs x) s = .next { s with
      v := loadedRegs s.v ((List.range (x.val + 1)).map fun k => s.mem.byte (s.i.toNat + k)) } := by
  rcases execLdRegs_cases x s with ⟨_, run⟩ | ⟨beyond, _⟩
  · exact run
  · omega

end

/-- The three digits of a byte, at three addresses. -/
theorem byte_putBcd (m : Memory) (a k : Nat) (b : Byte) (h : k < 3) :
    ((m.putBytes a (bcdDigits b)).byte (a + k)).toNat = b.toNat / 10 ^ (2 - k) % 10 := by
  have := b.isLt
  rw [byte_putBytes_at _ _ _ _ (by simpa using h)]
  have digit : k = 0 ∨ k = 1 ∨ k = 2 := by omega
  rcases digit with rfl | rfl | rfl <;> simp [bcdDigits] <;> omega

/-- Settles O46: the three digits, and the frame of a store of three bytes. -/
theorem bcdStoresThreeDigits : Obligations.BcdStoresThreeDigits := by
  refine fun x s => ⟨decode_wordXNN_ldB x, fun fits => ?_⟩
  refine ⟨_, exec_ldB_of_fits fits, ⟨?_, ?_, ?_⟩, putBytes_frame s (bcdDigits s.v[x])⟩
  · have := s.v[x].isLt
    have digit := byte_putBcd s.mem s.i.toNat 0 s.v[x] (by omega)
    exact digit.trans (by omega)
  · exact byte_putBcd s.mem s.i.toNat 1 s.v[x] (by omega)
  · exact (byte_putBcd s.mem s.i.toNat 2 s.v[x] (by omega)).trans (by simp)

/-- Settles O47: the registers stored, and the frame of a store of X + 1 bytes. -/
theorem storeRegistersAtIndex : Obligations.StoreRegistersAtIndex := fun x _ =>
  ⟨decode_wordXNN_stRegs x, fun fits =>
    ⟨_, exec_stRegs_of_fits fits, fun _ => storedRegs_byte, storedRegs_frame⟩⟩

theorem setRegs_frame (v : Vector Byte 16) (s : State) :
    Frame ((List.finRange 16).map .reg) s { s with v := v } := by
  constructor <;> simp_all

/-- Settles O48: the registers loaded, and nothing else. -/
theorem loadRegistersFromIndex : Obligations.LoadRegistersFromIndex := fun x s =>
  ⟨decode_wordXNN_ldRegs x, fun fits =>
    ⟨_, exec_ldRegs_of_fits fits, loadedRegs_range s x, setRegs_frame _ s⟩⟩

/-- Settles O50: the bytes FX65 reads are those FX55 stored. -/
theorem loadAfterStoreRestoresRegisters : Obligations.LoadAfterStoreRestoresRegisters := by
  intro x s v' fits
  refine ⟨_, _, exec_stRegs_of_fits fits,
    exec_ldRegs_of_fits (s := { storedRegs x s with v := v' }) fits,
    fun r => (loadedRegs_range { storedRegs x s with v := v' } x r).trans ?_⟩
  by_cases low : r.val ≤ x.val
  · rw [if_pos low, if_pos low]
    exact storedRegs_byte low
  · rw [if_neg low, if_neg low]

/-- Settles O53: a fetch reads memory as it stands. -/
theorem fetchSeesStoredBytes : Obligations.FetchSeesStoredBytes := by
  intro x s fits
  refine ⟨_, exec_stRegs_of_fits fits, fun k k' pc' next within atByte => ?_⟩
  refine ⟨_, fetch_ok (by show pc'.toNat ≤ _; omega), ?_⟩
  rw [wordAtPc_toNat]
  show ((storedRegs x s).mem.byte pc'.toNat).toNat * 256 +
    ((storedRegs x s).mem.byte (pc'.toNat + 1)).toNat = _
  rw [atByte, storedRegs_byte (Nat.le_of_lt (by omega)), Nat.add_assoc, ← next,
    storedRegs_byte within]

/-! ## Transfers that leave memory (R206) -/

section
variable {x y : RegIdx} {s : State}

theorem takesFault_ldB (h : 4096 ≤ s.i.toNat + 2) :
    TakesFault (.ldB x) s .memoryBounds (wordXNN 0xF x 0x33) (max s.i.toNat 4096) := by
  rw [wordXNN_ldB]
  rcases execLdB_cases x s with ⟨_, fits⟩ | ⟨run, _⟩
  · omega
  · exact run

theorem takesFault_stRegs (h : 4096 ≤ s.i.toNat + x.val) :
    TakesFault (.stRegs x) s .memoryBounds (wordXNN 0xF x 0x55) (max s.i.toNat 4096) := by
  rw [wordXNN_stRegs]
  rcases execStRegs_cases x s with ⟨_, fits⟩ | ⟨run, _⟩
  · omega
  · exact run

theorem takesFault_ldRegs (h : 4096 ≤ s.i.toNat + x.val) :
    TakesFault (.ldRegs x) s .memoryBounds (wordXNN 0xF x 0x65) (max s.i.toNat 4096) := by
  rw [wordXNN_ldRegs]
  rcases execLdRegs_cases x s with ⟨fits, _⟩ | ⟨_, run⟩
  · omega
  · exact run

theorem takesFault_drw {n : Fin 16} (rows : 0 < n.val) (h : 4096 < s.i.toNat + n.val) :
    TakesFault (.drw x y n) s .memoryBounds (wordXYN 0xD x y n.val) (max s.i.toNat 4096) := by
  rw [wordXYN_drw]
  rcases execDrw_cases x y n s with ⟨fits, _⟩ | ⟨_, _, run⟩
  · unfold spriteInMemory at fits
    omega
  · exact run

end

/-- Settles O49: the fault of each of the four transfers. -/
theorem blockTransferOutsideMemoryFaults : Obligations.BlockTransferOutsideMemoryFaults :=
  fun _ _ _ _ => ⟨takesFault_ldB, fun h => ⟨takesFault_stRegs h, takesFault_ldRegs h⟩, takesFault_drw⟩

/-! ## Memory by itself (R63, R64, R70) -/

theorem memRead_put {m : Memory} {a : Nat} (b : Byte) (ha : a < 4096) (a' : Nat) :
    memRead (m.put a b) a' = if a' = a then .ok b else memRead m a' := by
  rcases Nat.lt_or_ge a' 4096 with below | above
  · rw [memRead_ok below, memRead_ok below, byte_put]
    split <;> rfl
  · rw [memRead_error above, memRead_error above, if_neg (by omega)]

/-- Settles O51: a write below 4096 and the reads after it, and both refused from there on. -/
theorem readGivesLastWrite : Obligations.ReadGivesLastWrite := fun m a b =>
  ⟨fun below => ⟨m.put a b, memWrite_ok below, put_font m a b, memRead_put b below⟩,
    fun above => ⟨memWrite_error above, memRead_error above⟩⟩

/-- A canonical memory lists an address exactly when it reads other than as reset there. -/
theorem lookup_of_wf {m : Memory} (h : m.wf = true) (a : Nat) :
    m.cells.lookup a =
      if a < 4096 ∧ m.byte a ≠ m.unlisted a then some (m.byte a) else none := by
  obtain ⟨_, good⟩ := (wf_iff m).1 h
  cases found : m.cells.lookup a with
  | none => simp [Memory.byte, found]
  | some b =>
    obtain ⟨below, listed⟩ := good (a, b) (mem_of_lookup found)
    have byte : m.byte a = b := by simp [Memory.byte, found]
    rw [byte, if_pos ⟨below, listed⟩]

/-- Settles O52: what a canonical memory lists is told by its reads, and rising lists are told by
their lookups. -/
theorem canonicalMemoryIsUnique : Obligations.CanonicalMemoryIsUnique := by
  refine ⟨fun m m' wf wf' font same => ?_, fun _ _ _ _ => memWrite_wf⟩
  have unlisted : ∀ a, m.unlisted a = m'.unlisted a := fun a => by simp only [Memory.unlisted, font]
  have cells : m.cells = m'.cells := by
    refine rising_ext ((wf_iff m).1 wf).1 ((wf_iff m').1 wf').1 fun a => ?_
    rw [lookup_of_wf wf, lookup_of_wf wf', unlisted]
    by_cases below : a < 4096
    · rw [same a below]
    · simp [below]
  cases m
  cases m'
  simp_all

end Machine
end Sys2Proof

namespace Sys2Proof
namespace Machine

/-! ## Reset through the port (R250) -/

theorem byte_of_empty (font : Config.Font) (a : Nat) :
    (Memory.mk font []).byte a = if h : a < 80 then font[a] else 0 := rfl

/-- Settles O55: `init` is admitted in every phase, and the state it leaves is `State.resetWith`. -/
theorem initializeLeavesResetValues : Obligations.InitializeLeavesResetValues := by
  intro s
  refine ⟨initCore s, rfl, ?_, rfl, rfl, rfl, ?_, rfl, rfl, fun a h => ?_, fun a h => ?_, allOff_cell,
    ?_, rfl, rfl, rfl, rfl, rfl⟩
  · simp [initCore, State.resetWith]
  · simp [initCore, State.resetWith]
  · exact (byte_of_empty s.mem.font a).trans (dif_pos h)
  · exact (byte_of_empty s.mem.font a).trans (dif_neg (by omega))
  · simp [initCore, State.resetWith]

/-! ## The phase table (R255) -/

/-- The table's column of a call, as the statement writes it. -/
def Allowed (s : State) : HostCall → Prop
  | .init => True
  | .loadProgram _ => s.phase = .ready
  | .runCycle => s.phase = .ready ∨ s.phase = .running
  | .setKey _ _ | .getDisplay | .getKeys | .readFault => s.phase ≠ .uninit

theorem admitted_iff_allowed (c : HostCall) (s : State) :
    admitted c.op s.phase = true ↔ Allowed s c := by
  cases c <;> simp [admitted, HostCall.op, Allowed]

theorem hostCall_of_allowed {c : HostCall} {s : State} (allowed : Allowed s c)
    (noFault : c = .runCycle → s.fault = none) : ∃ t r, hostCall c s = .next (t, r) := by
  cases c with
  | init => exact ⟨_, _, hostCall_init s⟩
  | loadProgram rom => exact ⟨_, _, hostCall_loadProgram allowed⟩
  | runCycle =>
    obtain ⟨t, run, _⟩ := step_ends ⟨allowed, noFault rfl⟩
    exact ⟨t, _, hostCall_runCycle run⟩
  | setKey index pressed => exact ⟨_, _, hostCall_setKey allowed⟩
  | getDisplay => exact ⟨_, _, hostCall_getDisplay allowed⟩
  | getKeys => exact ⟨_, _, hostCall_getKeys allowed⟩
  | readFault => exact ⟨_, _, hostCall_readFault allowed⟩

/-- Settles O56: the statement's table is `admitted`. -/
theorem hostOperationsFollowPhaseTable : Obligations.HostOperationsFollowPhaseTable := by
  intro c s allowed
  have table : admitted c.op s.phase = true ↔ allowed := admitted_iff_allowed c s
  refine ⟨fun not => ?_, fun ok noFault => ?_, fun r ok run fault => ?_⟩
  · exact hostCall_notAdmitted (Bool.eq_false_iff.2 (mt table.1 not))
  · exact hostCall_of_allowed ((admitted_iff_allowed c s).1 (table.2 ok)) noFault
  · subst run
    exact hostCall_halted ok fault

/-! ## `loadProgram` (R252, R253) -/

theorem loadProgram_of_fits {bs : List Byte} (s : State) (h : bs.length ≤ 3584) :
    loadProgram (.bytes bs) s = ({ s with mem := s.mem.putBytes 0x200 bs }, .done) :=
  if_neg (Nat.not_lt.2 h)

theorem loadProgram_of_tooLarge {bs : List Byte} (s : State) (h : 3584 < bs.length) :
    loadProgram (.bytes bs) s = ({ s with phase := .loadFailed }, .romTooLarge) :=
  if_pos h

/-- Settles O57: a program that fits is one store at 0x200. -/
theorem loadProgramWritesOrFails : Obligations.LoadProgramWritesOrFails := by
  refine fun s ready => ⟨fun bs fits => ?_, fun bs large => ?_, hostCall_loadProgram ready⟩
  · refine ⟨{ s with mem := s.mem.putBytes 0x200 bs }, ?_, fun k h => ?_, fun a outside => ?_, ?_, rfl⟩
    · rw [hostCall_loadProgram ready, loadProgram_of_fits s fits]
    · exact byte_putBytes_at s.mem 0x200 k bs h
    · rcases outside with below | above
      · exact byte_putBytes_below s.mem 0x200 a bs below
      · exact byte_putBytes_above s.mem 0x200 a bs above
    · exact putBytes_font s.mem 0x200 bs
  · rw [hostCall_loadProgram ready, loadProgram_of_tooLarge s large]

/-! ## Boot (R254) -/

theorem hostCalls_cons {c : HostCall} {s t : State} {r : Response} (cs : List HostCall)
    (h : hostCall c s = .next (t, r)) : hostCalls (c :: cs) s = hostCalls cs t := by
  rw [hostCalls, h]

/-- The state after `init` and the load of a program that fits. -/
def booted (s : State) (bs : List Byte) : State :=
  { initCore s with mem := (initCore s).mem.putBytes 0x200 bs }

theorem hostCalls_boot (s : State) {bs : List Byte} (fits : bs.length ≤ 3584) :
    hostCalls [.init, .loadProgram (.bytes bs)] s = .next (booted s bs) := by
  have load : hostCall (.loadProgram (.bytes bs)) (initCore s) = .next (booted s bs, .done) := by
    rw [hostCall_loadProgram rfl, loadProgram_of_fits _ fits]
    rfl
  rw [hostCalls_cons _ (hostCall_init s), hostCalls_cons _ load, hostCalls]

/-- Settles O58: PC is where the load put the first two bytes. -/
theorem bootFetchesTheFirstWord : Obligations.BootFetchesTheFirstWord := by
  intro s hi lo rest short
  have fits : (hi :: lo :: rest).length ≤ 3584 := by simp only [List.length_cons]; omega
  have pc : (booted s (hi :: lo :: rest)).pc = 0x200 := rfl
  have near : (booted s (hi :: lo :: rest)).pc.toNat ≤ 0xFFE := by rw [pc]; decide
  refine ⟨_, hostCalls_boot s fits, ⟨.inl rfl, rfl⟩, pc, _, fetch_ok near, ?_⟩
  have first : ((initCore s).mem.putBytes 0x200 (hi :: lo :: rest)).byte (0x200 + 0) = hi :=
    byte_putBytes_at _ _ 0 _ (by simp)
  have second : ((initCore s).mem.putBytes 0x200 (hi :: lo :: rest)).byte (0x200 + 1) = lo :=
    byte_putBytes_at _ _ 1 _ (by simp)
  rw [wordAtPc_toNat]
  exact congrArg₂ (fun a b : Byte => a.toNat * 256 + b.toNat) first second

/-! ## Keys and the read ports (R240 to R242) -/

theorem setKey_changes_key_only (index : Nat) (pressed : Bool) (s : State) :
    setKey index pressed s = { s with key := (setKey index pressed s).key } := by
  unfold setKey
  split <;> rfl

/-- Settles O59: each port in a phase that admits it. -/
theorem keyAndReadPorts : Obligations.KeyAndReadPorts := fun s phase =>
  ⟨fun index pressed => ⟨_, hostCall_setKey phase, setKey_changes_key_only index pressed s,
      setKey_get index pressed s⟩,
    ⟨_, hostCall_getDisplay phase, displayWords_get s.disp⟩, hostCall_getKeys phase,
    hostCall_readFault phase⟩

end Machine
end Sys2Proof
